-- ==== Sys2Proof/Word.lean ====
section
/-! DEFINITION. Word.lean: the machine's word. The memory's unit is the cell (20_memory.md R46, R48); the
spec's arithmetic is exact arithmetic on the integers and no instruction sees a cell's bits (00_scope.md R7, R9). -/

namespace Sys2Proof

/-- A memory cell, the relative base or a queue value, kept as an integer as R9 allows. Which integers are cells
of a machine depends on its width: `Config.InCell`. Notes: log 1, DESIGN CHOICE. -/
abbrev Cell := Int

end Sys2Proof
end

