-- ==== Sys2Proof/Config.lean ====
section
/-! DEFINITION. Config.lean: the four parameters the spec leaves open (00_scope.md R5; 92_eei_decisions.md
D1, D2, D5, D10) and the constants derived from them (R6). There is no free value: the spec leaves no result open. -/

namespace Sys2Proof

/-- `P_OVERFLOW` (R5): what an arithmetic result outside the cell range does. -/
inductive OverflowMode where
  | fault
  | wrap
deriving DecidableEq, Repr

/-- The parameters of rule R5. They are fixed for a machine: no step changes them (10_state.md R33). -/
structure Config where
  /-- `P_W`, the width in bits of a cell and of the relative base. -/
  width : Nat
  /-- `P_OVERFLOW`. -/
  overflow : OverflowMode
  /-- `P_MEM_LIMIT`: writes are legal only at addresses below it. -/
  memLimit : Nat
  /-- `P_TIGHT_LOOP`: the quirk of 30_encoding.md R75. -/
  tightLoop : Bool
deriving DecidableEq, Repr

/-- The spec's default of each parameter (R5): 64, Fault, 2^(P_W−1), false. -/
def Config.default : Config :=
  { width := 64, overflow := .fault, memLimit := 2 ^ 63, tightLoop := false }

/-- The legal values of the parameters (the "legal values" column of R5). -/
abbrev Config.Legal (c : Config) : Prop :=
  8 ≤ c.width ∧ 1 ≤ c.memLimit ∧ c.memLimit ≤ 2 ^ (c.width - 1)

/-- `CMIN`, the least cell value (R6). -/
def Config.cmin (c : Config) : Int := -2 ^ (c.width - 1)

/-- `CMAX`, the greatest cell value (R6). -/
def Config.cmax (c : Config) : Int := 2 ^ (c.width - 1) - 1

/-- `AMAX`, the greatest address (R6). -/
def Config.amax (c : Config) : Int := c.cmax

/-- `inCell(x)` (R8): `x` is a cell value of this machine. -/
abbrev Config.InCell (c : Config) (x : Int) : Prop := c.cmin ≤ x ∧ x ≤ c.cmax

/-- `a ∈ Addr` (R6): `a` is an address of this machine. -/
abbrev Config.InAddr (c : Config) (a : Int) : Prop := 0 ≤ a ∧ a ≤ c.amax

end Sys2Proof
end

