-- ==== Sys2Proof/Syntax.lean ====
section
/-! DEFINITION. Syntax.lean: the ten instructions of the opcode table (30_encoding.md R64) with the operand forms
their slots take (R63). Register numbers do not exist: every operand is a memory cell or an immediate (10_state.md R22). -/

namespace Sys2Proof

/-- The three parameter modes and their digits (R63). -/
inductive Mode where
  | position
  | immediate
  | relative
deriving DecidableEq, Repr

/-- The digit that encodes a mode (R63). -/
def Mode.digit : Mode → Nat
  | .position => 0
  | .immediate => 1
  | .relative => 2

/-- An operand of a read slot, with its raw parameter (R63, R66). -/
inductive ReadOperand where
  /-- `[p]`: the value stored at address `p`. -/
  | position (p : Cell)
  /-- `#p`: the raw parameter itself. -/
  | immediate (p : Cell)
  /-- `[rb+p]`: the value stored at address `rb + p`. -/
  | relative (p : Cell)
deriving DecidableEq, Repr

/-- An operand of a write slot, with its raw parameter (R63, R67). Immediate mode has no form here: R68 makes it
an illegal word, which the decoder rejects as IMMEDIATE_WRITE (log 12). -/
inductive WriteOperand where
  /-- `[p]`: the cell at address `p`. -/
  | position (p : Cell)
  /-- `[rb+p]`: the cell at address `rb + p`. -/
  | relative (p : Cell)
deriving DecidableEq, Repr

def ReadOperand.mode : ReadOperand → Mode
  | .position _ => .position
  | .immediate _ => .immediate
  | .relative _ => .relative

def ReadOperand.raw : ReadOperand → Cell
  | .position p => p
  | .immediate p => p
  | .relative p => p

def WriteOperand.mode : WriteOperand → Mode
  | .position _ => .position
  | .relative _ => .relative

def WriteOperand.raw : WriteOperand → Cell
  | .position p => p
  | .relative p => p

/-- The instructions, one constructor per row of spec/opcode_table.json, operands in slot order (R64, R78). -/
inductive Instr where
  /-- ADD, opcode 1 (R101). -/
  | add (a b : ReadOperand) (dst : WriteOperand)
  /-- MUL, opcode 2 (R102). -/
  | mul (a b : ReadOperand) (dst : WriteOperand)
  /-- IN, opcode 3 (R110). -/
  | inp (dst : WriteOperand)
  /-- OUT, opcode 4 (R111). -/
  | out (a : ReadOperand)
  /-- JT, opcode 5 (R121). -/
  | jt (cond target : ReadOperand)
  /-- JF, opcode 6 (R122). -/
  | jf (cond target : ReadOperand)
  /-- LT, opcode 7 (R130). -/
  | lt (a b : ReadOperand) (dst : WriteOperand)
  /-- EQ, opcode 8 (R131). -/
  | eq (a b : ReadOperand) (dst : WriteOperand)
  /-- ARB, opcode 9 (R140). -/
  | arb (a : ReadOperand)
  /-- HLT, opcode 99 (R141). -/
  | hlt
deriving DecidableEq, Repr

/-- The pseudo-instruction `JMP t`, which expands to `JT #1, #t` (R79). -/
def Instr.jmp (t : Cell) : Instr := .jt (.immediate 1) (.immediate t)

/-- The opcode of an instruction (R64). -/
def Instr.opcode : Instr → Nat
  | .add _ _ _ => 1
  | .mul _ _ _ => 2
  | .inp _ => 3
  | .out _ => 4
  | .jt _ _ => 5
  | .jf _ _ => 6
  | .lt _ _ _ => 7
  | .eq _ _ _ => 8
  | .arb _ => 9
  | .hlt => 99

/-- The modes of an instruction's slots, in slot order. -/
def Instr.modes : Instr → List Mode
  | .add a b d => [a.mode, b.mode, d.mode]
  | .mul a b d => [a.mode, b.mode, d.mode]
  | .inp d => [d.mode]
  | .out a => [a.mode]
  | .jt c t => [c.mode, t.mode]
  | .jf c t => [c.mode, t.mode]
  | .lt a b d => [a.mode, b.mode, d.mode]
  | .eq a b d => [a.mode, b.mode, d.mode]
  | .arb a => [a.mode]
  | .hlt => []

/-- The raw parameters of an instruction, in slot order (R65). -/
def Instr.rawParams : Instr → List Cell
  | .add a b d => [a.raw, b.raw, d.raw]
  | .mul a b d => [a.raw, b.raw, d.raw]
  | .inp d => [d.raw]
  | .out a => [a.raw]
  | .jt c t => [c.raw, t.raw]
  | .jf c t => [c.raw, t.raw]
  | .lt a b d => [a.raw, b.raw, d.raw]
  | .eq a b d => [a.raw, b.raw, d.raw]
  | .arb a => [a.raw]
  | .hlt => []

/-- `Length(opc) = 1 + Arity(opc)` (R64), in cells. -/
def Instr.length (i : Instr) : Nat := 1 + i.rawParams.length

/-- The operand of the write slot, for the instructions that have one (the `W` slots of R64). -/
def Instr.writeSlot : Instr → Option WriteOperand
  | .add _ _ d => some d
  | .mul _ _ d => some d
  | .inp d => some d
  | .out _ => none
  | .jt _ _ => none
  | .jf _ _ => none
  | .lt _ _ d => some d
  | .eq _ _ d => some d
  | .arb _ => none
  | .hlt => none

end Sys2Proof
end

