-- ==== Sys2Proof/Decode.lean ====
section
/-! DEFINITION. Decode.lean: the decoder (30_encoding.md R60 to R73), total on any cells and rejecting by name, the
encoder (R81), and the host's view of a table word. Decoding splits a word into decimal digits, never into bits (R60). -/

namespace Sys2Proof

/-- Why a word is no instruction (R71: every illegal word has one of these causes). -/
inductive DecodeError where
  /-- R69. -/
  | illegalOpcode
  /-- R70. -/
  | illegalMode
  /-- R68. -/
  | immediateWrite
deriving DecidableEq, Repr

/-- `digit(v, k)` (00_scope.md R7): decimal digit `k` of `v`, digit 0 the least significant. -/
def digit (v k : Nat) : Nat := v / 10 ^ k % 10

/-- `hi` (R60): the digits above the mode of parameter 3. -/
def highDigits (v : Nat) : Nat := v / 100000

/-- A read slot's operand from its mode digit and raw parameter (R63); digits 3 to 9 are no mode. -/
def readSlot : Nat → Cell → Option ReadOperand
  | 0, p => some (.position p)
  | 1, p => some (.immediate p)
  | 2, p => some (.relative p)
  | _, _ => none

/-- A write slot's operand from its mode digit and raw parameter (R63): Immediate mode is IMMEDIATE_WRITE (R68),
digits 3 to 9 are ILLEGAL_MODE (R70). -/
def writeSlot : Nat → Cell → Except DecodeError WriteOperand
  | 0, p => .ok (.position p)
  | 1, _ => .error .immediateWrite
  | 2, p => .ok (.relative p)
  | _, _ => .error .illegalMode

/-- An instruction format (R64): the kinds of its slots, and the instruction its operands make. -/
inductive Form where
  /-- F1: no slot. -/
  | none (i : Instr)
  /-- F2 with a read slot. -/
  | read (mk : ReadOperand → Instr)
  /-- F2 with a write slot. -/
  | write (mk : WriteOperand → Instr)
  /-- F3: two read slots. -/
  | readRead (mk : ReadOperand → ReadOperand → Instr)
  /-- F4: two read slots, then a write slot. -/
  | readReadWrite (mk : ReadOperand → ReadOperand → WriteOperand → Instr)

/-- The opcode table, keyed by opcode (R64, R77); every other opcode field is illegal (R69). -/
def formOf : Nat → Option Form
  | 1 => some (.readReadWrite .add)
  | 2 => some (.readReadWrite .mul)
  | 3 => some (.write .inp)
  | 4 => some (.read .out)
  | 5 => some (.readRead .jt)
  | 6 => some (.readRead .jf)
  | 7 => some (.readReadWrite .lt)
  | 8 => some (.readReadWrite .eq)
  | 9 => some (.read .arb)
  | 99 => some (.none .hlt)
  | _ => Option.none

/-- The mode checks of R73 for one format, given the word and the raw parameters. A non-zero digit on a slot the
format lacks, or above the third mode, is ILLEGAL_MODE (R70). IMMEDIATE_WRITE comes after every ILLEGAL_MODE check (R205). -/
def Form.decode (v : Nat) (p1 p2 p3 : Cell) : Form → Except DecodeError Instr
  | .none i =>
    if digit v 2 = 0 ∧ digit v 3 = 0 ∧ digit v 4 = 0 ∧ highDigits v = 0 then .ok i
    else .error .illegalMode
  | .read mk =>
    if digit v 3 = 0 ∧ digit v 4 = 0 ∧ highDigits v = 0 then
      match readSlot (digit v 2) p1 with
      | some a => .ok (mk a)
      | Option.none => .error .illegalMode
    else .error .illegalMode
  | .write mk =>
    if digit v 3 = 0 ∧ digit v 4 = 0 ∧ highDigits v = 0 then
      (writeSlot (digit v 2) p1).map mk
    else .error .illegalMode
  | .readRead mk =>
    if digit v 4 = 0 ∧ highDigits v = 0 then
      match readSlot (digit v 2) p1, readSlot (digit v 3) p2 with
      | some a, some b => .ok (mk a b)
      | _, _ => .error .illegalMode
    else .error .illegalMode
  | .readReadWrite mk =>
    if highDigits v = 0 then
      match readSlot (digit v 2) p1, readSlot (digit v 3) p2 with
      | some a, some b => (writeSlot (digit v 4) p3).map (mk a b)
      | _, _ => .error .illegalMode
    else .error .illegalMode

/-- `Decode` (R73) with the operands built from the raw parameters of R65: the instruction at a word `w` followed by
the cells `p1`, `p2`, `p3`, of which it uses as many as its format has slots. A negative word is ILLEGAL_OPCODE (R69). -/
def decode (w p1 p2 p3 : Cell) : Except DecodeError Instr :=
  if w < 0 then .error .illegalOpcode
  else
    match formOf (w.toNat % 100) with
    | some form => form.decode w.toNat p1 p2 p3
    | Option.none => .error .illegalOpcode

/-- `decode` on a list of cells; a missing cell reads 0, as a parameter cell at or beyond the extent does (R65). -/
def decodeCells (cells : List Cell) : Except DecodeError Instr :=
  decode (cells.getD 0 0) (cells.getD 1 0) (cells.getD 2 0) (cells.getD 3 0)

/-- `m1 + 10·m2 + 100·m3`, the mode digits read as one number; a slot the instruction lacks has digit 0 (R62). -/
def modeDigits : List Mode → Nat
  | [] => 0
  | m :: rest => m.digit + 10 * modeDigits rest

/-- The instruction word, `opc + 100·m1 + 1000·m2 + 10000·m3` (R81). -/
def encodeWord (i : Instr) : Nat := i.opcode + 100 * modeDigits i.modes

/-- The cells of an instruction: its word, then its raw parameters in slot order (R81). -/
def encode (i : Instr) : List Cell := (encodeWord i : Int) :: i.rawParams

/-- Cell `k` of an instruction given as one number whose bit 0 is the first cell's least significant bit: a cell is
`P_W` bits of two's complement (00_scope.md R9), here at the default width 64 (log 5, DESIGN CHOICE). -/
def cellOfTableWord (nbits w k : Nat) : Cell :=
  (BitVec.ofNat Config.default.width (w % 2 ^ nbits / 2 ^ (Config.default.width * k))).toInt

/-- The cells of the longest instruction (4 cells, R60) for a table word; bits at or above `nbits` are 0. -/
def cellsOfTableWord (nbits w : Nat) : List Cell :=
  [cellOfTableWord nbits w 0, cellOfTableWord nbits w 1, cellOfTableWord nbits w 2, cellOfTableWord nbits w 3]

/-- The instruction the decoder reads from a table word; `none` where it refuses. -/
def decodeTableWord (nbits w : Nat) : Option Instr :=
  match decodeCells (cellsOfTableWord nbits w) with
  | .ok i => some i
  | .error _ => Option.none

end Sys2Proof
end

