-- ==== Sys2Proof/Machine/State.lean ====
section
/-! DEFINITION. Machine/State.lean: the machine's state (10_state.md R20, R21), as plain data, the state right after
reset, and the reasons a transition can stop. -/

namespace Sys2Proof.Machine

/-- The execution status (R27). -/
inductive Status where
  | runnable
  | waitingForInput
  | halted
  | error
deriving DecidableEq, Repr

/-- The values of the error cause register (R25). -/
inductive Cause where
  /-- NONE: no error recorded. -/
  | none
  /-- RUNAWAY: fetch at ip ≥ ext (R74). -/
  | runaway
  /-- ILLEGAL_OPCODE (R69). -/
  | illegalOpcode
  /-- ILLEGAL_MODE (R70). -/
  | illegalMode
  /-- IMMEDIATE_WRITE (R68). -/
  | immediateWrite
  /-- BAD_ADDRESS (R66, R67). -/
  | badAddress
  /-- BAD_JUMP_TARGET (R120). -/
  | badJumpTarget
  /-- OVERFLOW (R8). -/
  | overflow
  /-- MEMORY_EXHAUSTED (R67). -/
  | memoryExhausted
deriving DecidableEq, Repr

/-- Memory: the pairs (address, cell value) of the cells that hold a value other than 0. Its unit is the cell (R46);
an unlisted cell reads 0 (R28), so the list stands for the total function of R28 (R44; log 3). -/
abbrev Memory := List (Nat × Cell)

/-- The canonical form: addresses strictly rising, and no entry holds what an unlisted address reads as. Equal
memories are then equal lists. -/
abbrev Memory.wf (m : Memory) : Prop :=
  m.Pairwise (fun p q => p.1 < q.1) ∧ ∀ p ∈ m, p.2 ≠ 0

/-- The state of one VM instance (R21). `cfg` is not state of the spec (R33): the parameters of R5 are carried here so
that a statement about every state is one about every configuration (log 2, DESIGN CHOICE). -/
structure State where
  /-- The parameters of R5; no transition changes them. -/
  cfg : Config
  /-- The instruction pointer (R24). -/
  ip : Nat
  /-- The relative base (R26). -/
  rb : Cell
  /-- The execution status (R27). -/
  status : Status
  /-- The error cause (R25). -/
  cause : Cause
  /-- The memory (R28). -/
  mem : Memory
  /-- The extent of populated memory (R29). -/
  ext : Nat
  /-- The busy bit of the host interface (R30). -/
  running : Bool
  /-- The input queue, front first (R31). -/
  inQ : List Cell
  /-- The output queue, front first (R32). -/
  outQ : List Cell
deriving DecidableEq, Repr

/-- The machine right after reset: LOAD of the empty program (R240, R241), with the default parameters of R5. Memory
lists nothing; a program comes in by a LOAD (log 4). -/
def State.reset : State :=
  { cfg := Config.default, ip := 0, rb := 0, status := .runnable, cause := .none, mem := [], ext := 0,
    running := false, inQ := [], outQ := [] }

/-- A stop of the machine outside its status register. The spec has none: every fatal condition is the status Error,
an ordinary state (R203), so no step, meaning or transaction faults. It is safe: nothing is left out (log 11). -/
inductive Fault where
deriving DecidableEq, Repr

/-- Why a request is turned away with no effect. -/
inductive Refusal where
  /-- Raised by `exec` for an instruction that has no meaning yet (none here). Safe: the run stops. -/
  | notModelled (mnemonic : String)
  /-- Raised by `transact` while running = 1: the host then performs no transaction (R212). Safe: it is no legal request. -/
  | hostBusy
  /-- Raised by `transact` on LOAD of values outside Cell or of more than P_MEM_LIMIT cells: no legal argument (R241;
  93_implementation_defined.md U16, `refuse`). Safe. -/
  | illegalProgram
  /-- Raised by `transact` on IN_PUSH of a value outside Cell: no legal argument (R211). Safe. -/
  | illegalValue
  /-- Raised by `transact` on INSPECT of an address outside Addr: no legal argument (R211). Safe. -/
  | illegalAddress
deriving DecidableEq, Repr

end Sys2Proof.Machine
end

