-- ==== Sys2Proof/Machine/Ops.lean ====
section
/-! DEFINITION. Machine/Ops.lean: the named operations over memory, registers, queues and the status machine: the
primitives of 00_scope.md R10 and what the instruction rules share. -/

namespace Sys2Proof.Machine

/-! ### The register codes the host reads -/

/-- The 2-bit code of a status (R27). -/
def Status.code : Status → BitVec 2
  | .runnable => 0
  | .waitingForInput => 1
  | .halted => 2
  | .error => 3

/-- The 4-bit code of a cause (R25). -/
def Cause.code : Cause → BitVec 4
  | .none => 0
  | .runaway => 1
  | .illegalOpcode => 2
  | .illegalMode => 3
  | .immediateWrite => 4
  | .badAddress => 5
  | .badJumpTarget => 6
  | .overflow => 7
  | .memoryExhausted => 8

/-! ### Memory -/

/-- The cell at an address: 0 where nothing is listed (R28). -/
def Memory.read : Memory → Nat → Cell
  | [], _ => 0
  | (b, w) :: rest, a => if a = b then w else Memory.read rest a

/-- `mem[a] <- v`, keeping the canonical form: writing 0 removes the entry. -/
def Memory.write : Memory → Nat → Cell → Memory
  | [], a, v => if v = 0 then [] else [(a, v)]
  | (b, w) :: rest, a, v =>
    if a < b then (if v = 0 then (b, w) :: rest else (a, v) :: (b, w) :: rest)
    else if a = b then (if v = 0 then rest else (a, v) :: rest)
    else (b, w) :: Memory.write rest a v

/-- The memory that holds a program's cells from address `base` on and 0 everywhere else (R240). -/
def Memory.ofProgram : List Cell → Nat → Memory
  | [], _ => []
  | c :: cs, base => if c = 0 then Memory.ofProgram cs (base + 1) else (base, c) :: Memory.ofProgram cs (base + 1)

/-- `MemRead(a, 1)` (R41): beyond the extent a read gives 0, and a read changes nothing. -/
def memRead (s : State) (a : Nat) : Cell := if a < s.ext then s.mem.read a else 0

/-- `MemWrite(a, 1, v)` (R42): a write beyond the extent extends it. The address was checked when it was resolved. -/
def memWrite (a : Nat) (v : Cell) (s : State) : State :=
  { s with mem := s.mem.write a v, ext := max s.ext (a + 1) }

/-! ### The ways a step ends (R76) -/

/-- `raise Error(c)` (R203): the machine's one exception entry. Status and cause are written and every other write of
the step is dropped; there is no handler, vector, saved register or mode change, and no return (R204). -/
def raiseError (c : Cause) (s : State) : State := { s with status := .error, cause := c }

/-- Goes on with a checked result, or ends the step with the error the check raised. -/
def orRaise {α : Type} (s : State) (r : Except Cause α) (k : α → Host.Outcome State Fault Refusal) :
    Host.Outcome State Fault Refusal :=
  match r with
  | .ok x => k x
  | .error c => .next (raiseError c s)

/-- `suspend` (R10, R110): only the status changes. -/
def suspend (s : State) : State := { s with status := .waitingForInput }

/-- `halt` with its advance (R141). The value of ip after Halt is the spec's decision D8, on which no claim should
rest (93_implementation_defined.md U10; log 10). -/
def halt (s : State) : State := { s with status := .halted, ip := s.ip + 1 }

/-- `NextIp(len, dst)` (R75), with `s` the state at the start of the step. -/
def nextIp (s : State) (len : Nat) (dst : Option Nat) : Nat :=
  if s.cfg.tightLoop = true ∧ dst = some s.ip then s.ip else s.ip + len

/-- `ip <- NextIp(len, dst)`: the advance of an instruction that does not jump (R75). Ops before it leave ip alone, so
`s.ip` is still the value at the start of the step. -/
def advance (len : Nat) (dst : Option Nat) (s : State) : State := { s with ip := nextIp s len dst }

/-- `ip <- t`. -/
def setIp (t : Nat) (s : State) : State := { s with ip := t }

/-- `rb <- x` (R140). -/
def setRb (x : Cell) (s : State) : State := { s with rb := x }

/-- `JumpTo(t)` (R120). -/
def jumpTo (t : Cell) (s : State) : Host.Outcome State Fault Refusal :=
  if t < 0 then .next (raiseError .badJumpTarget s) else .next (setIp t.toNat s)

/-! ### The queues -/

/-- The state after `InPop()` (R10), where `rest` is the input queue behind its front value. -/
def setInQ (rest : List Cell) (s : State) : State := { s with inQ := rest }

/-- `OutPush(v)` (R10, R111). -/
def outPush (v : Cell) (s : State) : State := { s with outQ := s.outQ ++ [v] }

/-! ### Reset, and entering and leaving RUN -/

/-- `LOAD(program)` (R240): a complete fresh state. -/
def State.load (cfg : Config) (program : List Cell) : State :=
  { cfg := cfg, ip := 0, rb := 0, status := .runnable, cause := .none, mem := Memory.ofProgram program 0,
    ext := program.length, running := false, inQ := [], outQ := [] }

/-- What RUN does before its loop (R208, R209): nothing on a terminal VM. -/
def enterRun (s : State) : State :=
  match s.status with
  | .halted => s
  | .error => s
  | .runnable => { s with running := true }
  | .waitingForInput => { s with status := .runnable, running := true }

/-- What RUN does after its loop: `running <- 0` (R208). -/
def leaveRun (s : State) : State := { s with running := false }

end Sys2Proof.Machine
end

