-- ==== Sys2Proof/Machine/Flags.lean ====
section
/-! DEFINITION. Machine/Flags.lean: the instruction set has no flags (10_state.md R23). What stands here is what other
machines would put in flags: the range check of an arithmetic result (00_scope.md R8) and the 1 or 0 a comparison
writes to memory (R130, R131). -/

namespace Sys2Proof.Machine

/-- `wrap(x)` (R8): the cell value congruent to `x` modulo 2^P_W. -/
def wrap (c : Config) (x : Int) : Cell := (x - c.cmin) % 2 ^ c.width + c.cmin

/-- `alu(x)` (R8): the result of an arithmetic operation whose exact value is `x`. -/
def alu (c : Config) (x : Int) : Except Cause Cell :=
  if c.InCell x then .ok x
  else
    match c.overflow with
    | .wrap => .ok (wrap c x)
    | .fault => .error .overflow

/-- The cell value a comparison writes: 1 or 0 (R23). -/
def truthCell (b : Bool) : Cell := if b then 1 else 0

end Sys2Proof.Machine
end

