-- ==== Sys2Proof/Machine/Operands.lean ====
section
/-! DEFINITION. Machine/Operands.lean: operand resolution, the addressing-mode multiplexer (30_encoding.md R66, R67). -/

namespace Sys2Proof.Machine

/-- The address check both resolutions share: outside Addr is BAD_ADDRESS. The sum is exact (R66, R67). -/
def checkAddress (c : Config) (a : Int) : Except Cause Nat :=
  if c.InAddr a then .ok a.toNat else .error .badAddress

/-- Reads the cell at an address computed by a Position or Relative read slot. -/
def readAt (s : State) (a : Int) : Except Cause Cell :=
  match checkAddress s.cfg a with
  | .ok n => .ok (memRead s n)
  | .error c => .error c

/-- `ReadOperand(m, p)` (R66). -/
def resolveRead (s : State) : ReadOperand → Except Cause Cell
  | .position p => readAt s p
  | .immediate p => .ok p
  | .relative p => readAt s (s.rb + p)

/-- The exact address a write slot names, before any check (R67). -/
def writeTarget (s : State) : WriteOperand → Int
  | .position p => p
  | .relative p => s.rb + p

/-- `WriteAddress(m, p)` (R67): BAD_ADDRESS, then MEMORY_EXHAUSTED (R205). -/
def resolveWrite (s : State) (d : WriteOperand) : Except Cause Nat :=
  match checkAddress s.cfg (writeTarget s d) with
  | .ok n => if n < s.cfg.memLimit then .ok n else .error .memoryExhausted
  | .error c => .error c

/-- Resolves two read slots, a write slot, computes and stores: what the F4 instructions share (R74, R100). The slots
are resolved in increasing order, and every read precedes the write (R55). -/
def storeBinary (f : Cell → Cell → Except Cause Cell) (a b : ReadOperand) (dst : WriteOperand) (s : State) :
    Host.Outcome State Fault Refusal :=
  orRaise s (resolveRead s a) fun x =>
  orRaise s (resolveRead s b) fun y =>
  orRaise s (resolveWrite s dst) fun t =>
  orRaise s (f x y) fun r =>
  .next (advance 4 (some t) (memWrite t r s))

/-- Resolves the two read slots of a jump and takes it when the condition holds of the first (R121, R122). A jump
not taken ignores its target's value, which is still resolved (R120). -/
def jumpWhen (taken : Cell → Bool) (cond target : ReadOperand) (s : State) : Host.Outcome State Fault Refusal :=
  orRaise s (resolveRead s cond) fun x =>
  orRaise s (resolveRead s target) fun t =>
  if taken x then jumpTo t s else .next (advance 3 none s)

end Sys2Proof.Machine
end

