-- ==== Sys2Proof/Machine/Arithmetic.lean ====
section
/-! DEFINITION. Machine/Arithmetic.lean: Add and Multiply (40_arithmetic.md). -/

namespace Sys2Proof.Machine

/-- ADD (R101): `dest = a + b`. -/
def execAdd (a b : ReadOperand) (dst : WriteOperand) (s : State) : Host.Outcome State Fault Refusal :=
  storeBinary (fun x y => alu s.cfg (x + y)) a b dst s

/-- MUL (R102): `dest = a * b`. -/
def execMul (a b : ReadOperand) (dst : WriteOperand) (s : State) : Host.Outcome State Fault Refusal :=
  storeBinary (fun x y => alu s.cfg (x * y)) a b dst s

end Sys2Proof.Machine
end

