-- ==== Sys2Proof/Machine/Compare.lean ====
section
/-! DEFINITION. Machine/Compare.lean: LessThan and Equals (43_compare.md). -/

namespace Sys2Proof.Machine

/-- LT (R130): `dest = (a < b) ? 1 : 0`, a signed comparison. -/
def execLt (a b : ReadOperand) (dst : WriteOperand) (s : State) : Host.Outcome State Fault Refusal :=
  storeBinary (fun x y => .ok (truthCell (decide (x < y)))) a b dst s

/-- EQ (R131): `dest = (a == b) ? 1 : 0`. -/
def execEq (a b : ReadOperand) (dst : WriteOperand) (s : State) : Host.Outcome State Fault Refusal :=
  storeBinary (fun x y => .ok (truthCell (decide (x = y)))) a b dst s

end Sys2Proof.Machine
end

