-- ==== Sys2Proof/Machine/InputOutput.lean ====
section
/-! DEFINITION. Machine/InputOutput.lean: Input and Output (41_io.md). -/

namespace Sys2Proof.Machine

/-- IN (R110): pops the front of in_q into `dest`; suspends when the queue is empty. The address errors come first
(R110; D21). -/
def execInp (dst : WriteOperand) (s : State) : Host.Outcome State Fault Refusal :=
  orRaise s (resolveWrite s dst) fun t =>
  match s.inQ with
  | [] => .next (suspend s)
  | x :: rest => .next (advance 2 (some t) (setInQ rest (memWrite t x s)))

/-- OUT (R111): appends the value to the back of out_q. -/
def execOut (a : ReadOperand) (s : State) : Host.Outcome State Fault Refusal :=
  orRaise s (resolveRead s a) fun x =>
  .next (advance 2 none (outPush x s))

end Sys2Proof.Machine
end

