-- ==== Sys2Proof/Machine/Jumps.lean ====
section
/-! DEFINITION. Machine/Jumps.lean: JumpIfTrue and JumpIfFalse (42_jumps.md). -/

namespace Sys2Proof.Machine

/-- JT (R121): jumps when the condition is not 0. -/
def execJt (cond target : ReadOperand) (s : State) : Host.Outcome State Fault Refusal :=
  jumpWhen (fun x => decide (x ≠ 0)) cond target s

/-- JF (R122): jumps when the condition is 0. -/
def execJf (cond target : ReadOperand) (s : State) : Host.Outcome State Fault Refusal :=
  jumpWhen (fun x => decide (x = 0)) cond target s

end Sys2Proof.Machine
end

