-- ==== Sys2Proof/Machine/System.lean ====
section
/-! DEFINITION. Machine/System.lean: AdjustRelativeBase and Halt (44_system.md). -/

namespace Sys2Proof.Machine

/-- ARB (R140): `relative_base += operand`; a Relative operand is read with the old rb. -/
def execArb (a : ReadOperand) (s : State) : Host.Outcome State Fault Refusal :=
  orRaise s (resolveRead s a) fun x =>
  orRaise s (alu s.cfg (s.rb + x)) fun r =>
  .next (advance 2 none (setRb r s))

/-- HLT (R141): sets the status Halted. -/
def execHlt (s : State) : Host.Outcome State Fault Refusal :=
  .next (halt s)

end Sys2Proof.Machine
end

