-- ==== Sys2Proof/Machine/Fetch.lean ====
section
/-! DEFINITION. Machine/Fetch.lean: fetching and decoding the instruction at ip, and placing one there
(30_encoding.md R65, R73, R74; 20_memory.md R41, R54). -/

namespace Sys2Proof.Machine

/-- The cause a rejected word raises (R69, R70, R68). -/
def Cause.ofDecodeError : DecodeError → Cause
  | .illegalOpcode => .illegalOpcode
  | .illegalMode => .illegalMode
  | .immediateWrite => .immediateWrite

/-- The instruction word at ip and the three cells after it, read with MemRead: a cell at or beyond the extent reads 0
(R65). Reads have no effect (R41), so reading more cells than the arity changes nothing (log 13). -/
def fetchCells (s : State) : List Cell :=
  [memRead s s.ip, memRead s (s.ip + 1), memRead s (s.ip + 2), memRead s (s.ip + 3)]

/-- The instruction at ip, decoded fresh from memory (R34, R73), or why there is none. -/
def decodeAt (s : State) : Except DecodeError Instr := decodeCells (fetchCells s)

/-- Stores the cells of a list at `a`, `a + 1`, and so on. -/
def storeCells : List Cell → Nat → State → State
  | [], _, s => s
  | v :: vs, a, s => storeCells vs (a + 1) (memWrite a v s)

/-- Puts the four cells of a table word where the next fetch reads, inside the extent, with the machine able to step:
it stands for a LOAD of that instruction (log 5). -/
def placeTableWord (nbits w : Nat) (s : State) : State :=
  { storeCells (cellsOfTableWord nbits w) s.ip s with status := .runnable }

end Sys2Proof.Machine
end

