-- ==== Sys2Proof/Machine/Step.lean ====
section
/-! DEFINITION. Machine/Step.lean: one transition of the core (30_encoding.md R74; 60_exceptions.md R208). -/

namespace Sys2Proof.Machine

/-- Fetch, decode, execute (R74). Operand resolution is the first part of each meaning. -/
def fetchDecodeExecute (s : State) : Host.Outcome State Fault Refusal :=
  if s.ip < s.ext then
    match decodeAt s with
    | .ok i => exec i s
    | .error e => .next (raiseError (Cause.ofDecodeError e) s)
  else .next (raiseError .runaway s)

/-- One transition of the core. `Step()` is enabled only when status = Runnable (R74). In any other status no step is
enabled: a RUN in progress returns, which clears `running` (R208), and otherwise the machine stays as it is until the
host acts (R201, R207; log 6, log 7). -/
def step (s : State) : Host.Outcome State Fault Refusal :=
  match s.status with
  | .runnable => fetchDecodeExecute s
  | .waitingForInput => .next (leaveRun s)
  | .halted => .next (leaveRun s)
  | .error => .next (leaveRun s)

/-- `s` with the instruction of a table word stored where `step` fetches next, and able to step. -/
def State.withFetchWord (s : State) (nbits w : Nat) : State := placeTableWord nbits w s

end Sys2Proof.Machine
end

