-- ==== Sys2Proof/Machine/Transactions.lean ====
section
/-! DEFINITION. Machine/Transactions.lean: the host interface (60_exceptions.md R208 to R212). -/

namespace Sys2Proof.Machine

/-- The seven host transactions (R211). -/
inductive Transaction where
  /-- LOAD(program). -/
  | load (program : List Cell)
  /-- RUN, executed with a budget of `fuel` steps that stands outside the core (R213; log 8). -/
  | run (fuel : Nat)
  /-- IN_PUSH(v). -/
  | inPush (v : Cell)
  /-- OUT_POP. -/
  | outPop
  /-- READ_STATUS. -/
  | readStatus
  /-- INSPECT(a). -/
  | inspect (a : Nat)
  /-- INSPECT_REGS. -/
  | inspectRegs
deriving DecidableEq, Repr

/-- What the host gets back (R211). -/
inductive Reply where
  /-- LOAD and IN_PUSH give nothing back. -/
  | nothing
  /-- The final status of a RUN. -/
  | status (s : Status)
  /-- The budget ran out before RUN returned: none of the four statuses (R213). -/
  | notFinished
  /-- OUT_POP: the value, or "empty". -/
  | popped (v : Option Cell)
  /-- READ_STATUS. -/
  | statusAndCause (s : Status) (c : Cause)
  /-- INSPECT. -/
  | cell (v : Cell)
  /-- INSPECT_REGS: ip, rb, ext. -/
  | regs (ip : Nat) (rb : Cell) (ext : Nat)
deriving DecidableEq, Repr

/-- The loop and the return of RUN (R208): steps while status = Runnable, then `running <- 0`. A state in which the
budget ends is an ordinary intermediate state with status Runnable (R213). -/
def runLoop : Nat → State → Host.Outcome (State × Reply) Fault Refusal
  | 0, s => if s.status = .runnable then .next (s, .notFinished) else .next (leaveRun s, .status s.status)
  | fuel + 1, s =>
    if s.status = .runnable then
      match step s with
      | .next t => runLoop fuel t
      | .fault f => .fault f
      | .refused r => .refused r
    else .next (leaveRun s, .status s.status)

/-- RUN on a VM with running = 0 (R208); on a terminal VM it returns the status and changes nothing (R209). -/
def runTransaction (fuel : Nat) (s : State) : Host.Outcome (State × Reply) Fault Refusal :=
  if s.status = .halted ∨ s.status = .error then .next (s, .status s.status)
  else runLoop fuel (enterRun s)

/-- Appends a value to the back of in_q (IN_PUSH, R211). -/
def pushInput (v : Cell) (s : State) : State := { s with inQ := s.inQ ++ [v] }

/-- Removes the front value of out_q (OUT_POP, R211). -/
def popOutput (s : State) : State × Reply :=
  match s.outQ with
  | [] => (s, .popped none)
  | v :: rest => ({ s with outQ := rest }, .popped (some v))

/-- The legal arguments of LOAD (R240, R241). -/
abbrev LegalProgram (c : Config) (program : List Cell) : Prop :=
  program.length ≤ c.memLimit ∧ ∀ x ∈ program, c.InCell x

/-- One host transaction (R211). All are allowed only while running = 0 (R212); a request with an illegal argument is
refused and changes nothing (93_implementation_defined.md, key `refuse`; log 9). -/
def transact (t : Transaction) (s : State) : Host.Outcome (State × Reply) Fault Refusal :=
  if s.running = true then .refused .hostBusy
  else
    match t with
    | .load program =>
      if LegalProgram s.cfg program then .next (State.load s.cfg program, .nothing) else .refused .illegalProgram
    | .run fuel => runTransaction fuel s
    | .inPush v => if s.cfg.InCell v then .next (pushInput v s, .nothing) else .refused .illegalValue
    | .outPop => .next (popOutput s)
    | .readStatus => .next (s, .statusAndCause s.status s.cause)
    | .inspect a => if s.cfg.InAddr a then .next (s, .cell (memRead s a)) else .refused .illegalAddress
    | .inspectRegs => .next (s, .regs s.ip s.rb s.ext)

end Sys2Proof.Machine
end

