-- ==== Sys2Proof/WellFormed.lean ====
section
/-! DEFINITION. WellFormed.lean: which instructions a machine of a given configuration can hold in its memory: the
word and every raw parameter are cell values (30_encoding.md R60, R65). -/

namespace Sys2Proof

/-- The word check: the instruction word is a cell value. It can fail only at a small `P_W` (the largest legal word
is 22208, R80; log 15). -/
def Instr.wordFits (c : Config) (i : Instr) : Bool := decide (c.InCell (encodeWord i))

/-- The parameter check: every raw parameter is a cell value (R65). -/
def Instr.paramsFit (c : Config) (i : Instr) : Bool := i.rawParams.all fun p => decide (c.InCell p)

/-- An instruction is well-formed for a configuration when every one of its cells is a cell value. -/
def Instr.wf (c : Config) (i : Instr) : Bool := i.wordFits c && i.paramsFit c

end Sys2Proof
end

