-- ==== Sys2Proof/Safety.lean ====
section
/-! DEFINITION. Safety.lean: the invariant of the machine's state, from the types 10_state.md gives its elements, and
the states claims name. -/

namespace Sys2Proof.Machine

/-- Halted and Error are terminal (R201). -/
abbrev State.Terminal (s : State) : Prop := s.status = .halted ∨ s.status = .error

/-- Memory and extent as R28 and R29 type them: the list is canonical, every listed value is a cell value, every listed
cell lies below the extent (a cell at or beyond it holds 0), and the extent does not exceed the capacity. -/
abbrev State.MemoryOk (s : State) : Prop :=
  s.mem.wf ∧ (∀ p ∈ s.mem, p.1 < s.ext ∧ s.cfg.InCell p.2) ∧ s.ext ≤ s.cfg.memLimit

/-- The registers as R24, R25 and R26 type them: ip below 2^P_W, rb a cell value, and a cause recorded exactly in Error
(R25: written only by `raise Error`; Error is left only by LOAD, R201). -/
abbrev State.RegistersOk (s : State) : Prop :=
  s.ip < 2 ^ s.cfg.width ∧ s.cfg.InCell s.rb ∧ (s.status = .error ↔ s.cause ≠ .none)

/-- Both queues hold cell values (R31, R32). -/
abbrev State.QueuesOk (s : State) : Prop :=
  (∀ v ∈ s.inQ, s.cfg.InCell v) ∧ ∀ v ∈ s.outQ, s.cfg.InCell v

/-- The state is one the spec's types allow. -/
abbrev State.Inv (s : State) : Prop :=
  s.cfg.Legal ∧ s.MemoryOk ∧ s.RegistersOk ∧ s.QueuesOk

end Sys2Proof.Machine
end

