-- ==== Sys2Proof/Certificates/Slice0/Obligations.lean ====
section
/-! DEFINITION. Certificates/Slice0/Obligations.lean: what is claimed of the model, from the numbered rules of spec/.
The first part holds the words the claims are written in; they restate the spec's rules and use of the model only its
state, MemRead (`memRead`) and, for a write slot, the exact address it names (`writeTarget`). -/

open Sys2Proof Sys2Proof.Machine

namespace Sys2Proof.Claims

/-! ### Words (R60, R63, R64) -/

/-- The word with digits `hi m3 m2 m1 code` (R60). -/
def wordOf (hi m3 m2 m1 code : Nat) : Cell := ((hi * 100000 + m3 * 10000 + m2 * 1000 + m1 * 100 + code : Nat) : Int)

/-- `op` is the read operand of mode digit `m` and raw parameter `p` (R63, column "read slot"). -/
def ReadForm (m : Nat) (p : Cell) (op : ReadOperand) : Prop :=
  (m = 0 ∧ op = .position p) ∨ (m = 1 ∧ op = .immediate p) ∨ (m = 2 ∧ op = .relative p)

/-- `d` is the write operand of mode digit `m` and raw parameter `p` (R63, column "write slot"). -/
def WriteForm (m : Nat) (p : Cell) (d : WriteOperand) : Prop :=
  (m = 0 ∧ d = .position p) ∨ (m = 2 ∧ d = .relative p)

/-- `raise Error(c)`: status and cause change and nothing else (R203). -/
def errored (c : Cause) (s : State) : State := { s with status := .error, cause := c }

/-- A step is enabled at `s`, ip is inside the extent and the word there is `w` (R74). -/
def AtWord (s : State) (w : Cell) : Prop := s.status = .runnable ∧ s.ip < s.ext ∧ memRead s s.ip = w

/-- The word `w` is illegal: whatever cells follow it, the decoder rejects it with `e`, and a step that meets it raises
`c` and does nothing else (R73, R203). -/
def Illegal (w : Cell) (e : DecodeError) (c : Cause) : Prop :=
  (∀ p1 p2 p3, decode w p1 p2 p3 = .error e) ∧ ∀ s, AtWord s w → step s = .next (errored c s)

/-- The word `w` with the raw parameters `p1`, `p2`, `p3` after it is the instruction `i`: the decoder says so, and a step
that meets them executes it (R65, R73, R74). -/
def Means (w p1 p2 p3 : Cell) (i : Instr) : Prop :=
  decode w p1 p2 p3 = .ok i ∧
  ∀ s, AtWord s w → memRead s (s.ip + 1) = p1 → memRead s (s.ip + 2) = p2 → memRead s (s.ip + 3) = p3 →
    step s = exec i s

/-- The words of an F4 opcode (R63, R64, R68, R70): slots R R W. -/
def WordsReadReadWrite (code : Nat) (mk : ReadOperand → ReadOperand → WriteOperand → Instr) : Prop :=
  ∀ hi m3 m2 m1 : Nat, m1 < 10 → m2 < 10 → m3 < 10 →
    (2 < m1 ∨ 2 < m2 ∨ 2 < m3 ∨ hi ≠ 0 → Illegal (wordOf hi m3 m2 m1 code) .illegalMode .illegalMode) ∧
    (m1 ≤ 2 → m2 ≤ 2 → m3 = 1 → hi = 0 → Illegal (wordOf hi m3 m2 m1 code) .immediateWrite .immediateWrite) ∧
    ∀ p1 p2 p3 a b d, ReadForm m1 p1 a → ReadForm m2 p2 b → WriteForm m3 p3 d → hi = 0 →
      Means (wordOf hi m3 m2 m1 code) p1 p2 p3 (mk a b d)

/-- The words of an F3 opcode: slots R R. -/
def WordsReadRead (code : Nat) (mk : ReadOperand → ReadOperand → Instr) : Prop :=
  ∀ hi m3 m2 m1 : Nat, m1 < 10 → m2 < 10 → m3 < 10 →
    (2 < m1 ∨ 2 < m2 ∨ m3 ≠ 0 ∨ hi ≠ 0 → Illegal (wordOf hi m3 m2 m1 code) .illegalMode .illegalMode) ∧
    ∀ p1 p2 p3 a b, ReadForm m1 p1 a → ReadForm m2 p2 b → m3 = 0 → hi = 0 →
      Means (wordOf hi m3 m2 m1 code) p1 p2 p3 (mk a b)

/-- The words of an F2 opcode with a read slot. -/
def WordsRead (code : Nat) (mk : ReadOperand → Instr) : Prop :=
  ∀ hi m3 m2 m1 : Nat, m1 < 10 → m2 < 10 → m3 < 10 →
    (2 < m1 ∨ m2 ≠ 0 ∨ m3 ≠ 0 ∨ hi ≠ 0 → Illegal (wordOf hi m3 m2 m1 code) .illegalMode .illegalMode) ∧
    ∀ p1 p2 p3 a, ReadForm m1 p1 a → m2 = 0 → m3 = 0 → hi = 0 → Means (wordOf hi m3 m2 m1 code) p1 p2 p3 (mk a)

/-- The words of an F2 opcode with a write slot. -/
def WordsWrite (code : Nat) (mk : WriteOperand → Instr) : Prop :=
  ∀ hi m3 m2 m1 : Nat, m1 < 10 → m2 < 10 → m3 < 10 →
    (2 < m1 ∨ m2 ≠ 0 ∨ m3 ≠ 0 ∨ hi ≠ 0 → Illegal (wordOf hi m3 m2 m1 code) .illegalMode .illegalMode) ∧
    (m1 = 1 → m2 = 0 → m3 = 0 → hi = 0 → Illegal (wordOf hi m3 m2 m1 code) .immediateWrite .immediateWrite) ∧
    ∀ p1 p2 p3 d, WriteForm m1 p1 d → m2 = 0 → m3 = 0 → hi = 0 → Means (wordOf hi m3 m2 m1 code) p1 p2 p3 (mk d)

/-- The words of an F1 opcode: no slot, so only the bare opcode is legal. -/
def WordsNone (code : Nat) (i : Instr) : Prop :=
  ∀ hi m3 m2 m1 : Nat, m1 < 10 → m2 < 10 → m3 < 10 →
    (m1 ≠ 0 ∨ m2 ≠ 0 ∨ m3 ≠ 0 ∨ hi ≠ 0 → Illegal (wordOf hi m3 m2 m1 code) .illegalMode .illegalMode) ∧
    ∀ p1 p2 p3, m1 = 0 → m2 = 0 → m3 = 0 → hi = 0 → Means (wordOf hi m3 m2 m1 code) p1 p2 p3 i

/-- The ten opcodes (R61). -/
def opcodes : List Nat := [1, 2, 3, 4, 5, 6, 7, 8, 9, 99]

/-- `Arity(opc)` (R64). -/
def arityOf (opc : Nat) : Nat :=
  if opc ∈ [1, 2, 7, 8] then 3 else if opc ∈ [5, 6] then 2 else if opc ∈ [3, 4, 9] then 1 else 0

/-- Digit `k + 1` of a word breaks R70: on a used slot it is no mode, on an unused slot it is not 0. -/
def BadModeDigit (w k : Nat) : Prop :=
  if k ≤ arityOf (w % 100) then 2 < digit w (k + 1) else digit w (k + 1) ≠ 0

/-- What R70 calls an illegal mode, for a word with a legal opcode. -/
def HasIllegalMode (w : Nat) : Prop := (∃ k ∈ [1, 2, 3], BadModeDigit w k) ∨ w / 100000 ≠ 0

/-- The number of the write slot of an opcode that has one: slot 3 of 1, 2, 7 and 8, slot 1 of 3 (R68). -/
def writeSlotOf (opc : Nat) : Option Nat :=
  if opc ∈ [1, 2, 7, 8] then some 3 else if opc = 3 then some 1 else none

/-- The words of one row of R80: the opcode with each allowed digit in each place. -/
def wordsOfRow (opc : Nat) (m1 m2 m3 : List Nat) : List Nat :=
  m3.flatMap fun c => m2.flatMap fun b => m1.map fun a => c * 10000 + b * 1000 + a * 100 + opc

/-- The legal instruction words, row by row as in the table of R80. -/
def legalWords : List Nat :=
  wordsOfRow 1 [0, 1, 2] [0, 1, 2] [0, 2] ++ wordsOfRow 2 [0, 1, 2] [0, 1, 2] [0, 2] ++
  wordsOfRow 3 [0, 2] [0] [0] ++ wordsOfRow 4 [0, 1, 2] [0] [0] ++
  wordsOfRow 5 [0, 1, 2] [0, 1, 2] [0] ++ wordsOfRow 6 [0, 1, 2] [0, 1, 2] [0] ++
  wordsOfRow 7 [0, 1, 2] [0, 1, 2] [0, 2] ++ wordsOfRow 8 [0, 1, 2] [0, 1, 2] [0, 2] ++
  wordsOfRow 9 [0, 1, 2] [0] [0] ++ wordsOfRow 99 [0] [0] [0]

/-! ### Operands and results (R8, R66, R67) -/

/-- The read operand `op` has the value `x` in `s` (R66). -/
def ReadsAs (s : State) : ReadOperand → Cell → Prop
  | .position p, x => s.cfg.InAddr p ∧ x = memRead s p.toNat
  | .immediate p, x => x = p
  | .relative p, x => s.cfg.InAddr (s.rb + p) ∧ x = memRead s (s.rb + p).toNat

/-- The read operand `op` names an address outside Addr (R66). -/
def BadRead (s : State) : ReadOperand → Prop
  | .position p => ¬ s.cfg.InAddr p
  | .immediate _ => False
  | .relative p => ¬ s.cfg.InAddr (s.rb + p)

/-- What an arithmetic result of exact value `x` does (R8): stored as it is when in range; else, under Wrap, the one
cell value congruent to it modulo 2^P_W; else, under Fault, the overflow error. -/
def AluOutcome (c : Config) (x : Int) (stores : Cell → Prop) (overflows : Prop) : Prop :=
  (c.InCell x → stores x) ∧
  (¬ c.InCell x → c.overflow = .wrap → ∃ r : Cell, c.InCell r ∧ (2 ^ c.width : Int) ∣ (r - x) ∧ stores r) ∧
  (¬ c.InCell x → c.overflow = .fault → overflows)

/-- `u` is `s` after a completed step of length `len` that stored `v` at address `w` (R42, R75, R100): that cell, the
extent and ip change; every other cell and register and the output queue do not. -/
structure Stored (s u : State) (len w : Nat) (v : Cell) : Prop where
  cell : memRead u w = v
  otherCells : ∀ a, a ≠ w → memRead u a = memRead s a
  ext : u.ext = max s.ext (w + 1)
  ip : u.ip = if s.cfg.tightLoop = true ∧ w = s.ip then s.ip else s.ip + len
  rb : u.rb = s.rb
  status : u.status = s.status
  cause : u.cause = s.cause
  running : u.running = s.running
  outQ : u.outQ = s.outQ
  cfg : u.cfg = s.cfg

/-- An instruction of length 4 completes, storing `v` at `w` and leaving the input queue alone. -/
def StoresResult (i : Instr) (s : State) (w : Nat) (v : Cell) : Prop :=
  ∃ u, exec i s = .next u ∧ Stored s u 4 w v ∧ u.inQ = s.inQ

/-- The resolution errors of an F4 instruction, slot by slot (R205, item 5): the first bad slot decides. -/
def OperandErrors (i : Instr) (a b : ReadOperand) (d : WriteOperand) : Prop :=
  ∀ s : State,
    (BadRead s a → exec i s = .next (errored .badAddress s)) ∧
    (∀ x, ReadsAs s a x → BadRead s b → exec i s = .next (errored .badAddress s)) ∧
    (∀ x y, ReadsAs s a x → ReadsAs s b y → ¬ s.cfg.InAddr (writeTarget s d) →
      exec i s = .next (errored .badAddress s)) ∧
    (∀ x y, ReadsAs s a x → ReadsAs s b y → s.cfg.InAddr (writeTarget s d) →
      s.cfg.memLimit ≤ (writeTarget s d).toNat → exec i s = .next (errored .memoryExhausted s))

/-- Both read slots have their values and the write slot names a writable address: what F4 instructions compute on. -/
def Resolved (s : State) (a b : ReadOperand) (d : WriteOperand) (x y : Cell) (w : Nat) : Prop :=
  ReadsAs s a x ∧ ReadsAs s b y ∧ s.cfg.InAddr (writeTarget s d) ∧ w = (writeTarget s d).toNat ∧ w < s.cfg.memLimit

/-- The rule of an arithmetic instruction with exact result `f x y` (R101, R102). -/
def ArithmeticRule (code : Nat) (mk : ReadOperand → ReadOperand → WriteOperand → Instr) (f : Int → Int → Int) : Prop :=
  WordsReadReadWrite code mk ∧
  ∀ a b d, OperandErrors (mk a b d) a b d ∧
    ∀ (s : State) (x y : Cell) (w : Nat), s.MemoryOk → Resolved s a b d x y w →
      AluOutcome s.cfg (f x y) (StoresResult (mk a b d) s w) (exec (mk a b d) s = .next (errored .overflow s))

/-- The rule of a comparison with truth value `f x y` (R130, R131). -/
def ComparisonRule (code : Nat) (mk : ReadOperand → ReadOperand → WriteOperand → Instr) (f : Int → Int → Prop) : Prop :=
  WordsReadReadWrite code mk ∧
  ∀ a b d, OperandErrors (mk a b d) a b d ∧
    ∀ (s : State) (x y : Cell) (w : Nat), s.MemoryOk → Resolved s a b d x y w →
      (f x y → StoresResult (mk a b d) s w 1) ∧ (¬ f x y → StoresResult (mk a b d) s w 0)

/-- The rule of a jump taken when the condition `f x` holds (R120, R121, R122). -/
def JumpRule (code : Nat) (mk : ReadOperand → ReadOperand → Instr) (f : Int → Prop) : Prop :=
  WordsReadRead code mk ∧
  ∀ (c t : ReadOperand) (s : State),
    (BadRead s c → exec (mk c t) s = .next (errored .badAddress s)) ∧
    (∀ x, ReadsAs s c x → BadRead s t → exec (mk c t) s = .next (errored .badAddress s)) ∧
    ∀ x y, ReadsAs s c x → ReadsAs s t y →
      (f x → 0 ≤ y → exec (mk c t) s = .next { s with ip := y.toNat }) ∧
      (f x → y < 0 → exec (mk c t) s = .next (errored .badJumpTarget s)) ∧
      (¬ f x → exec (mk c t) s = .next { s with ip := s.ip + 3 })

/-! ### Runs -/

/-- `k` transitions of the core lead from `s` to `t`. -/
def StepsTo : Nat → State → State → Prop
  | 0, s, t => s = t
  | k + 1, s, t => ∃ u, step s = .next u ∧ StepsTo k u t

/-- A step is enabled at `s` and the instruction it runs is `i` (R74). -/
def Runs (s : State) (i : Instr) : Prop := s.status = .runnable ∧ s.ip < s.ext ∧ decodeAt s = .ok i

/-- The value the step from `s` outputs, if it is a completing Output step (R111). -/
def outputOf (s : State) : List Cell :=
  if s.status = .runnable ∧ s.ip < s.ext then
    match decodeAt s with
    | .ok (.out a) =>
      match resolveRead s a with
      | .ok x => [x]
      | .error _ => []
    | _ => []
  else []

/-- The values output by `k` transitions from `s`, in program order. -/
def outputsAlong : Nat → State → List Cell
  | 0, _ => []
  | k + 1, s =>
    outputOf s ++
      match step s with
      | .next u => outputsAlong k u
      | _ => []

/-- The operand of the step from `s`, if it is a completing AdjustRelativeBase step, else 0 (R140). -/
def adjustmentOf (s : State) : Int :=
  if s.status = .runnable ∧ s.ip < s.ext then
    match decodeAt s with
    | .ok (.arb a) =>
      match resolveRead s a with
      | .ok x => if s.cfg.InCell (s.rb + x) ∨ s.cfg.overflow = .wrap then x else 0
      | .error _ => 0
    | _ => 0
  else 0

/-- The total of the adjustments of `k` transitions from `s`. -/
def adjustmentsAlong : Nat → State → Int
  | 0, _ => 0
  | k + 1, s =>
    adjustmentOf s +
      match step s with
      | .next u => adjustmentsAlong k u
      | _ => 0

/-- A RUN from `s` returns and leaves `t` (R208), however large a budget that takes. -/
def RunReturns (s t : State) : Prop := ∃ fuel st, transact (.run fuel) s = .next (t, .status st)

/-- The host pushes values one after the other. -/
def PushAll : List Cell → State → State → Prop
  | [], s, t => s = t
  | v :: vs, s, t => ∃ u, transact (.inPush v) s = .next (u, .nothing) ∧ PushAll vs u t

/-- The host feeds values one at a time, with a RUN after each (R115). -/
def FedOneAtATime : List Cell → State → State → Prop
  | [], s, t => s = t
  | v :: vs, s, t =>
    ∃ u r, transact (.inPush v) s = .next (u, .nothing) ∧ RunReturns u r ∧ FedOneAtATime vs r t

/-- The causes R202 allows for an instruction, beside those that arise in decoding. -/
def mayRaise : Instr → List Cause
  | .add _ _ _ => [.badAddress, .memoryExhausted, .overflow]
  | .mul _ _ _ => [.badAddress, .memoryExhausted, .overflow]
  | .inp _ => [.badAddress, .memoryExhausted]
  | .out _ => [.badAddress]
  | .jt _ _ => [.badAddress, .badJumpTarget]
  | .jf _ _ => [.badAddress, .badJumpTarget]
  | .lt _ _ _ => [.badAddress, .memoryExhausted]
  | .eq _ _ _ => [.badAddress, .memoryExhausted]
  | .arb _ => [.badAddress, .overflow]
  | .hlt => []

end Sys2Proof.Claims

open Sys2Proof.Claims

/-! ### Encoding -/

/-- Decoding the cells of an instruction gives it back, with every operand form at every raw parameter, whatever cells
follow. Derived: the inverse that R81 names (the spec marks R81 as derived from R60). -/
def Obligations.DecodingAnEncodedInstructionGivesItBack : Prop :=
  ∀ (i : Instr) (rest : List Cell), decodeCells (encode i ++ rest) = .ok i

/-- Each legal word has one meaning: whatever decodes to `i` begins with the cells of `i`, a missing cell counting as
0 (R65). Derived (R71, R81). -/
def Obligations.WhatDecodesToAnInstructionIsItsEncoding : Prop :=
  ∀ (w p1 p2 p3 : Cell) (i : Instr), decode w p1 p2 p3 = .ok i → encode i = [w, p1, p2, p3].take i.length

/-- R69, both directions: exactly the negative words and the opcode fields outside the table are ILLEGAL_OPCODE, and a
step that meets one raises it. That a negative word is one is the spec's decision D6. -/
def Obligations.IllegalOpcodeExactlyOnNegativeOrUnlistedWords : Prop :=
  (∀ w p1 p2 p3 : Cell, decode w p1 p2 p3 = .error .illegalOpcode ↔ (w < 0 ∨ w.toNat % 100 ∉ opcodes)) ∧
  ∀ w : Cell, w < 0 ∨ w.toNat % 100 ∉ opcodes → Illegal w .illegalOpcode .illegalOpcode

/-- R70, both directions: with a legal opcode, exactly the words with a bad mode digit or a digit above the third mode
are ILLEGAL_MODE, and a step that meets one raises it. The cases of unused digits are the spec's decision D6. -/
def Obligations.IllegalModeExactlyOnBadModeDigits : Prop :=
  ∀ w : Nat, w % 100 ∈ opcodes →
    (∀ p1 p2 p3 : Cell, decode (w : Int) p1 p2 p3 = .error .illegalMode ↔ HasIllegalMode w) ∧
    (HasIllegalMode w → Illegal (w : Int) .illegalMode .illegalMode)

/-- R68: with a legal opcode and no illegal mode, exactly the words with mode digit 1 on the write slot are
IMMEDIATE_WRITE. It is decided from the word alone, whatever the parameters, and a step that meets one raises it with no
other effect. -/
def Obligations.ImmediateModeOnAWriteSlotIsRejected : Prop :=
  ∀ w : Nat, w % 100 ∈ opcodes → ¬ HasIllegalMode w →
    (∀ p1 p2 p3 : Cell, decode (w : Int) p1 p2 p3 = .error .immediateWrite ↔
      ∃ k, writeSlotOf (w % 100) = some k ∧ digit w (k + 1) = 1) ∧
    ((∃ k, writeSlotOf (w % 100) = some k ∧ digit w (k + 1) = 1) →
      Illegal (w : Int) .immediateWrite .immediateWrite)

/-- The legal words are the 99 of the table of R80, whatever the parameters. Derived (the spec marks R80 as derived). -/
def Obligations.ExactlyTheNinetyNineTableWordsDecode : Prop :=
  legalWords.length = 99 ∧ legalWords.Nodup ∧
  ∀ w p1 p2 p3 : Cell, (∃ i, decode w p1 p2 p3 = .ok i) ↔ ∃ n ∈ legalWords, w = (n : Int)

/-- A word of each family, written from R80 and the digits of R63, decodes to the instruction it stands for. -/
def Obligations.WordsWrittenFromTheTableDecode : Prop :=
  decode 1002 4 3 4 = .ok (.mul (.position 4) (.immediate 3) (.position 4)) ∧
  decode 21201 (-1) 7 5 = .ok (.add (.relative (-1)) (.immediate 7) (.relative 5)) ∧
  decode 203 9 0 0 = .ok (.inp (.relative 9)) ∧
  decode 204 (-1) 0 0 = .ok (.out (.relative (-1))) ∧
  decode 1105 1 7 0 = .ok (.jt (.immediate 1) (.immediate 7)) ∧
  decode 206 3 8 0 = .ok (.jf (.relative 3) (.position 8)) ∧
  decode 107 5 6 7 = .ok (.lt (.immediate 5) (.position 6) (.position 7)) ∧
  decode 22208 1 2 3 = .ok (.eq (.relative 1) (.relative 2) (.relative 3)) ∧
  decode 109 (-10) 0 0 = .ok (.arb (.immediate (-10))) ∧
  decode 99 0 0 0 = .ok .hlt

/-! ### The step -/

/-- R74's use of Decode: with a step enabled and ip inside the extent, the word at ip and the raw parameters after it,
read with MemRead, decide the step: an instruction is executed, an illegal word raises the cause of its kind. -/
def Obligations.StepRunsTheInstructionDecodedAtIp : Prop :=
  ∀ s : State, s.status = .runnable → s.ip < s.ext →
    (∀ i, decode (memRead s s.ip) (memRead s (s.ip + 1)) (memRead s (s.ip + 2)) (memRead s (s.ip + 3)) = .ok i →
      step s = exec i s) ∧
    (decode (memRead s s.ip) (memRead s (s.ip + 1)) (memRead s (s.ip + 2)) (memRead s (s.ip + 3)) =
        .error .illegalOpcode → step s = .next (errored .illegalOpcode s)) ∧
    (decode (memRead s s.ip) (memRead s (s.ip + 1)) (memRead s (s.ip + 2)) (memRead s (s.ip + 3)) =
        .error .illegalMode → step s = .next (errored .illegalMode s)) ∧
    (decode (memRead s s.ip) (memRead s (s.ip + 1)) (memRead s (s.ip + 2)) (memRead s (s.ip + 3)) =
        .error .immediateWrite → step s = .next (errored .immediateWrite s))

/-- A step whose ip is at or beyond the extent raises RUNAWAY and does nothing else (R74, first line). -/
def Obligations.StepBeyondTheExtentRaisesRunaway : Prop :=
  ∀ s : State, s.status = .runnable → s.ext ≤ s.ip → step s = .next (errored .runaway s)

/-- What the model's step does when no step is enabled: a RUN in progress returns (running becomes 0, as in the last
lines of R208), and nothing else changes. The form is the model's choice (log 6); that no step is enabled is R201. -/
def Obligations.WithNoStepEnabledOnlyRunningIsCleared : Prop :=
  ∀ s : State, s.status ≠ .runnable → step s = .next { s with running := false }

/-- The machine never stops outside its status register: from every state, of every configuration, a transition
completes. Derived: R71, R73 and R76 give every word and every step one outcome (log 11). -/
def Obligations.EveryStepAnswersANextState : Prop :=
  ∀ s : State, ∃ t, step s = .next t

/-- R200, row by row: which event of a step takes status from Runnable to which value; in any other status no step
changes it; RUN makes a waiting VM runnable and goes on stepping, and leaves a terminal VM as it is; LOAD makes it
Runnable; no other transaction changes it. -/
def Obligations.StatusChangesOnlyAsTheTransitionTableSays : Prop :=
  (∀ s t : State, step s = .next t →
    (s.status ≠ .runnable → t.status = s.status) ∧
    (s.status = .runnable →
      (t.status = .waitingForInput ↔ ∃ d w, Runs s (.inp d) ∧ resolveWrite s d = .ok w ∧ s.inQ = []) ∧
      (t.status = .halted ↔ Runs s .hlt) ∧
      (t.status = .error → t = errored t.cause s ∧ t.cause ≠ .none))) ∧
  (∀ (s u : State) (r : Reply) (fuel : Nat), transact (.run fuel) s = .next (u, r) →
    (s.status = .waitingForInput → runLoop fuel { s with status := .runnable, running := true } = .next (u, r)) ∧
    (s.Terminal → u.status = s.status)) ∧
  (∀ (s u : State) (r : Reply) (p : List Cell), transact (.load p) s = .next (u, r) → u.status = .runnable) ∧
  ∀ (s u : State) (r : Reply) (t : Transaction), (∀ p, t ≠ .load p) → (∀ n, t ≠ .run n) →
    transact t s = .next (u, r) → u.status = s.status

/-- R112: only an Input step that finds in_q empty ends in WaitingForInput. -/
def Obligations.OnlyInputWithAnEmptyQueueSuspends : Prop :=
  ∀ s t : State, step s = .next t → s.status ≠ .waitingForInput → t.status = .waitingForInput →
    (∃ d, Runs s (.inp d)) ∧ s.inQ = [] ∧ t = { s with status := .waitingForInput }

/-- R203 (the spec's decision D7): a step that ends in Error has written status and cause and nothing else, the cause is
one of the eight, and the RUN in progress then returns Error. -/
def Obligations.ErrorsArePrecise : Prop :=
  ∀ s t : State, step s = .next t → s.status ≠ .error → t.status = .error →
    t = errored t.cause s ∧ t.cause ≠ .none ∧
    ∀ fuel, runLoop fuel t = .next ({ t with running := false }, .status .error)

/-- R202's table, one direction: an instruction raises only the causes its column allows; OVERFLOW only with
P_OVERFLOW = Fault, MEMORY_EXHAUSTED only with P_MEM_LIMIT < 2^(P_W−1), and so never at the default limit (R45). -/
def Obligations.InstructionsRaiseOnlyTheirOwnCauses : Prop :=
  ∀ (i : Instr) (s t : State), exec i s = .next t → s.status = .runnable → t.status = .error →
    t.cause ∈ mayRaise i ∧
    (t.cause = .overflow → s.cfg.overflow = .fault) ∧
    (t.cause = .memoryExhausted → s.cfg.memLimit < 2 ^ (s.cfg.width - 1))

/-! ### The instructions

The rules below rest, as the spec does, on its own decisions for what its source leaves open: illegal digits and negative
words (D6), addresses outside Addr (D3), the capacity (D5), the order of the checks and that a failing step writes only
status and cause (D7), overflow as a parameter (D2), negative jump targets (D9), Input's checks before its queue test
(D21). The model adds none of its own to them. -/

/-- R101: dest gets alu(a + b). Overflow is R8's parameter P_OVERFLOW (D2), both values stated. -/
def Obligations.AddFollowsItsRule : Prop := ArithmeticRule 1 .add fun a b => a + b

/-- R102: dest gets alu(a * b). Overflow is R8's parameter P_OVERFLOW (D2), both values stated. -/
def Obligations.MulFollowsItsRule : Prop := ArithmeticRule 2 .mul fun a b => a * b

/-- R130: dest gets 1 when a < b as signed integers, else 0. Its address errors are the spec's decisions D3 and D5. -/
def Obligations.LessThanFollowsItsRule : Prop := ComparisonRule 7 .lt fun a b => a < b

/-- R131: dest gets 1 when a = b as integers, else 0. Its address errors are the spec's decisions D3 and D5. -/
def Obligations.EqualsFollowsItsRule : Prop := ComparisonRule 8 .eq fun a b => a = b

/-- R121, with JumpTo of R120: jump when the condition is not 0. BAD_JUMP_TARGET is the spec's decision D9. -/
def Obligations.JumpIfTrueFollowsItsRule : Prop := JumpRule 5 .jt fun x => x ≠ 0

/-- R122, with JumpTo of R120: jump when the condition is 0. BAD_JUMP_TARGET is the spec's decision D9. -/
def Obligations.JumpIfFalseFollowsItsRule : Prop := JumpRule 6 .jf fun x => x = 0

/-- R110: the address errors come before the empty-queue test (within the rule, the spec's decision D21); with an
empty queue only the status changes; else the front value is removed from in_q and stored. -/
def Obligations.InputFollowsItsRule : Prop :=
  WordsWrite 3 .inp ∧
  ∀ (d : WriteOperand) (s : State),
    (¬ s.cfg.InAddr (writeTarget s d) → exec (.inp d) s = .next (errored .badAddress s)) ∧
    (s.cfg.InAddr (writeTarget s d) → s.cfg.memLimit ≤ (writeTarget s d).toNat →
      exec (.inp d) s = .next (errored .memoryExhausted s)) ∧
    (s.cfg.InAddr (writeTarget s d) → (writeTarget s d).toNat < s.cfg.memLimit →
      (s.inQ = [] → exec (.inp d) s = .next { s with status := .waitingForInput }) ∧
      ∀ v rest, s.MemoryOk → s.inQ = v :: rest →
        ∃ u, exec (.inp d) s = .next u ∧ Stored s u 2 (writeTarget s d).toNat v ∧ u.inQ = rest)

/-- R111: the value goes to the back of out_q, ip advances by 2, and nothing else changes. -/
def Obligations.OutputFollowsItsRule : Prop :=
  WordsRead 4 .out ∧
  ∀ (a : ReadOperand) (s : State),
    (BadRead s a → exec (.out a) s = .next (errored .badAddress s)) ∧
    ∀ x, ReadsAs s a x → exec (.out a) s = .next { s with outQ := s.outQ ++ [x], ip := s.ip + 2 }

/-- R140: rb takes the result of rb + operand (R8; overflow is the parameter P_OVERFLOW, D2), ip advances by 2, and
nothing else changes. -/
def Obligations.AdjustRelativeBaseFollowsItsRule : Prop :=
  WordsRead 9 .arb ∧
  ∀ (a : ReadOperand) (s : State),
    (BadRead s a → exec (.arb a) s = .next (errored .badAddress s)) ∧
    ∀ x, ReadsAs s a x →
      AluOutcome s.cfg (s.rb + x) (fun r => exec (.arb a) s = .next { s with rb := r, ip := s.ip + 2 })
        (exec (.arb a) s = .next (errored .overflow s))

/-- HLT in every state sets the status Halted and leaves everything but ip alone; any mode digit makes its word illegal.
The value of ip is left open, as 93_implementation_defined.md U10 asks (log 10). -/
def Obligations.HaltSetsHaltedAndKeepsAllButIp : Prop :=
  WordsNone 99 .hlt ∧ ∀ s : State, ∃ n, exec .hlt s = .next { s with status := .halted, ip := n }

/-- The memory frame of every instruction (R100, R110, R111, R121, R122, R140, R141): a form with a write slot leaves
every cell but the one its slot names; a form without one leaves every cell and the extent. -/
def Obligations.InstructionsChangeNoCellButTheirDestination : Prop :=
  ∀ (i : Instr) (s t : State), s.MemoryOk → exec i s = .next t →
    (∀ d, i.writeSlot = some d → ∀ a : Nat, (a : Int) = writeTarget s d → ∀ b, b ≠ a → memRead t b = memRead s b) ∧
    (i.writeSlot = none → t.ext = s.ext ∧ ∀ b, memRead t b = memRead s b)

/-- The register and queue frame of every step: rb changes only in an ARB step (R26); in_q only loses its front, and only
in an Input step (R31); out_q only gains one value at its back, and only in an Output step (R32); cause only in an
error (R25); `running` not at all while a step is enabled (R30); the parameters never (R33). -/
def Obligations.StepsChangeRegistersAndQueuesOnlyByTheirInstruction : Prop :=
  ∀ s t : State, step s = .next t →
    (t.rb ≠ s.rb → ∃ a, Runs s (.arb a)) ∧
    (t.inQ ≠ s.inQ → ∃ d v, Runs s (.inp d) ∧ s.inQ = v :: t.inQ) ∧
    (t.outQ ≠ s.outQ → ∃ a x, Runs s (.out a) ∧ ReadsAs s a x ∧ t.outQ = s.outQ ++ [x]) ∧
    (t.cause ≠ s.cause → t.status = .error) ∧
    (s.status = .runnable → t.running = s.running) ∧
    t.cfg = s.cfg

/-- A step that ends Runnable advances ip by its instruction's length, or keeps it under the tight-loop quirk, unless
it is a jump (R75, R123). -/
def Obligations.OnlyJumpsRedirectControl : Prop :=
  ∀ (s t : State) (i : Instr), Runs s i → step s = .next t → t.status = .runnable →
    (∀ c a, i ≠ .jt c a) → (∀ c a, i ≠ .jf c a) →
    t.ip = if s.cfg.tightLoop = true ∧ (∃ d, i.writeSlot = some d ∧ writeTarget s d = (s.ip : Int)) then s.ip
      else s.ip + i.length

/-- R43: no step lowers the extent, and the only cell a step changes is the one its instruction's write slot names, so none
is forgotten; RUN lowers no extent; and every other transaction but LOAD leaves extent and cells alone. -/
def Obligations.MemoryNeverShrinks : Prop :=
  (∀ s t : State, step s = .next t → s.ext ≤ t.ext) ∧
  (∀ s t : State, s.MemoryOk → step s = .next t → ∀ a, memRead t a ≠ memRead s a →
    ∃ i d, Runs s i ∧ i.writeSlot = some d ∧ writeTarget s d = (a : Int)) ∧
  (∀ (fuel : Nat) (s t : State) (r : Reply), transact (.run fuel) s = .next (t, r) → s.ext ≤ t.ext) ∧
  ∀ (x : Transaction) (s t : State) (r : Reply), (∀ p, x ≠ .load p) → (∀ n, x ≠ .run n) →
    transact x s = .next (t, r) → t.ext = s.ext ∧ ∀ a, memRead t a = memRead s a

/-! ### The invariant -/

/-- Reset is a state the spec's types allow, with the values of R240 for the empty program (log 4). -/
def Obligations.ResetIsALegalFreshState : Prop :=
  State.reset.Inv ∧ State.reset.ip = 0 ∧ State.reset.rb = 0 ∧ State.reset.status = .runnable ∧
  State.reset.cause = .none ∧ State.reset.ext = 0 ∧ State.reset.running = false ∧ State.reset.inQ = [] ∧
  State.reset.outQ = [] ∧ ∀ a, memRead State.reset a = 0

/-- R240: between RUNs, LOAD of a legal program builds the fresh state the rule writes out, whatever the state before;
and that state is one the spec's types allow. Within the rule, the values of ext, cause, running, in_q and out_q are the
spec's decisions D4, D12, D14 and D15. -/
def Obligations.LoadBuildsTheFreshState : Prop :=
  ∀ (s : State) (p : List Cell), s.running = false → p.length ≤ s.cfg.memLimit → (∀ x ∈ p, s.cfg.InCell x) →
    ∃ u, transact (.load p) s = .next (u, .nothing) ∧
      (∀ a, memRead u a = p.getD a 0) ∧ u.ext = p.length ∧ u.ip = 0 ∧ u.rb = 0 ∧ u.status = .runnable ∧
      u.cause = .none ∧ u.running = false ∧ u.inQ = [] ∧ u.outQ = [] ∧ u.cfg = s.cfg ∧
      (s.cfg.Legal → u.Inv)

/-- Every step keeps the invariant: canonical memory of cell values inside the extent, the extent within the capacity,
ip below 2^P_W, rb and the queues in Cell, and a cause recorded exactly in Error. -/
def Obligations.EveryStepKeepsTheInvariant : Prop :=
  ∀ s t : State, s.Inv → step s = .next t → t.Inv

/-- Every host transaction keeps the invariant, RUN with any budget included. -/
def Obligations.EveryTransactionKeepsTheInvariant : Prop :=
  ∀ (x : Transaction) (s t : State) (r : Reply), s.Inv → transact x s = .next (t, r) → t.Inv

/-- What is fetched is well-formed: in a legal state every decoded instruction has its word and its parameters in Cell. -/
def Obligations.DecodedInstructionsAreWellFormed : Prop :=
  ∀ (s : State) (i : Instr), s.Inv → decodeAt s = .ok i → i.wf s.cfg = true

/-! ### The host interface -/

/-- R209: RUN on a terminal VM returns its status and changes no state, whatever the budget; its state stays as it is
under the core's own transitions; and the host may still inspect a cell and pop output. The no-op is the spec's decision
D11, the keeping of the state its decision D26. -/
def Obligations.RunOnATerminalVmIsANoOp : Prop :=
  ∀ s : State, s.running = false → s.Terminal →
    (∀ fuel, transact (.run fuel) s = .next (s, .status s.status)) ∧ step s = .next s ∧
    (∀ a : Nat, s.cfg.InAddr a → transact (.inspect a) s = .next (s, .cell (memRead s a))) ∧
    ∀ v rest, s.outQ = v :: rest → transact .outPop s = .next ({ s with outQ := rest }, .popped (some v))

/-- While running = 1 every transaction is turned away with no effect (R212); the form, a refusal, is the model's
(log 9). -/
def Obligations.NoTransactionWhileRunning : Prop :=
  ∀ (x : Transaction) (s : State), s.running = true → transact x s = .refused .hostBusy

/-- The transactions of R211 other than LOAD and RUN, each with its effect and its reply, at every legal argument. -/
def Obligations.TransactionsDoWhatTheTableSays : Prop :=
  ∀ s : State, s.running = false →
    (∀ v, s.cfg.InCell v → transact (.inPush v) s = .next ({ s with inQ := s.inQ ++ [v] }, .nothing)) ∧
    (s.outQ = [] → transact .outPop s = .next (s, .popped none)) ∧
    (∀ v rest, s.outQ = v :: rest → transact .outPop s = .next ({ s with outQ := rest }, .popped (some v))) ∧
    transact .readStatus s = .next (s, .statusAndCause s.status s.cause) ∧
    (∀ a : Nat, s.cfg.InAddr a → transact (.inspect a) s = .next (s, .cell (memRead s a))) ∧
    transact .inspectRegs s = .next (s, .regs s.ip s.rb s.ext)

/-- Arguments the spec calls illegal are refused (R241 with U16, R211); that they are refused by name is the model's form
(log 9). -/
def Obligations.IllegalHostArgumentsAreRefused : Prop :=
  ∀ s : State, s.running = false →
    (∀ p : List Cell, (s.cfg.memLimit < p.length ∨ ∃ x ∈ p, ¬ s.cfg.InCell x) →
      transact (.load p) s = .refused .illegalProgram) ∧
    (∀ v, ¬ s.cfg.InCell v → transact (.inPush v) s = .refused .illegalValue) ∧
    (∀ a : Nat, ¬ s.cfg.InAddr a → transact (.inspect a) s = .refused .illegalAddress)

/-- R208: on a terminal VM, RUN returns the status; on any other, it makes the status Runnable, sets `running`, steps while
the status is Runnable, and returns the first other status with `running` at 0. With a smaller budget it is not finished,
at a state whose status is Runnable (R213). -/
def Obligations.RunStepsUntilTheStatusIsNotRunnable : Prop :=
  ∀ s : State, s.running = false →
    (s.Terminal → ∀ fuel, transact (.run fuel) s = .next (s, .status s.status)) ∧
    (¬ s.Terminal → ∀ (k : Nat) (t : State), StepsTo k { s with status := .runnable, running := true } t →
      (∀ j < k, ∃ u, StepsTo j { s with status := .runnable, running := true } u ∧ u.status = .runnable) →
      (t.status ≠ .runnable →
        ∀ fuel, k ≤ fuel → transact (.run fuel) s = .next ({ t with running := false }, .status t.status)) ∧
      (t.status = .runnable → transact (.run k) s = .next (t, .notFinished)))

/-- A VM loaded with the empty program accepts the load, and its first RUN ends in Error(RUNAWAY) at ip = 0. Derived: R241,
the spec's decision D22. -/
def Obligations.TheEmptyProgramRunsAway : Prop :=
  ∀ s : State, s.running = false →
    ∃ u, transact (.load []) s = .next (u, .nothing) ∧ u.ip = 0 ∧
      ∀ fuel, 1 ≤ fuel → transact (.run fuel) u = .next (errored .runaway u, .status .error)

/-- R113: a suspended VM that is run with nothing pushed suspends again with no other change, and a RUN after a push
starts by executing the same Input again, at the same ip and with the same write slot. Derived (the spec marks R113 as
derived). -/
def Obligations.ResumeExecutesTheSameInputAgain : Prop :=
  ∀ (s t : State), s.status = .runnable → step s = .next t → t.status = .waitingForInput →
    (∀ fuel, 1 ≤ fuel →
      transact (.run fuel) { t with running := false } =
        .next ({ t with running := false }, .status .waitingForInput)) ∧
    ∃ d, Runs s (.inp d) ∧
      ∀ v, step (enterRun (pushInput v t)) = exec (.inp d) (enterRun (pushInput v t)) ∧
        (enterRun (pushInput v t)).ip = s.ip ∧ writeTarget (enterRun (pushInput v t)) d = writeTarget s d

/-! ### Runs -/

/-- R114: along any number of transitions out_q gains exactly the values of the Output steps, in program order, at its
back; and a RUN, whether it ends, suspends or is cut off, keeps the values the host has not popped. -/
def Obligations.OutputsAppearInProgramOrder : Prop :=
  (∀ (k : Nat) (s t : State), StepsTo k s t → t.outQ = s.outQ ++ outputsAlong k s) ∧
  ∀ (s t : State) (fuel : Nat) (r : Reply), transact (.run fuel) s = .next (t, r) →
    (s.Terminal → t.outQ = s.outQ) ∧
    (¬ s.Terminal → t.outQ = s.outQ ++ outputsAlong fuel { s with status := .runnable, running := true })

/-- R142: rb counts the operands of the AdjustRelativeBase steps: exactly under Fault, modulo 2^P_W under Wrap; so from a
fresh load under Fault every Relative slot uses the address S + p. Derived (the spec marks R142 as derived). -/
def Obligations.RelativeBaseAccumulatesTheAdjustments : Prop :=
  ∀ (k : Nat) (s t : State), StepsTo k s t →
    (s.cfg.overflow = .fault → t.rb = s.rb + adjustmentsAlong k s) ∧
    (2 ^ s.cfg.width : Int) ∣ (t.rb - (s.rb + adjustmentsAlong k s)) ∧
    (∀ c p, s = State.load c p → c.overflow = .fault → ∀ q : Cell,
      writeTarget t (.relative q) = adjustmentsAlong k s + q ∧
      ∀ x, ReadsAs t (.relative q) x ↔
        t.cfg.InAddr (adjustmentsAlong k s + q) ∧ x = memRead t (adjustmentsAlong k s + q).toNat)

/-- R115: for every state between RUNs and every non-empty list of inputs, feeding them one at a time with a RUN after
each ends in a state exactly when supplying them all before one RUN ends in that same state: memory, output and every
other element. Derived (the spec marks R115 as derived). -/
def Obligations.FeedingOneAtATimeEqualsFeedingAllAtOnce : Prop :=
  ∀ (vs : List Cell) (s t : State), vs ≠ [] →
    (FedOneAtATime vs s t ↔ ∃ u, PushAll vs s u ∧ RunReturns u t)

/-- Input the core has not reached does not influence a step: unless the step suspends, pushing values first and stepping
is stepping and pushing after. Derived (R31, R110). -/
def Obligations.UnreadInputDoesNotInfluenceAStep : Prop :=
  ∀ (s t : State) (vs : List Cell), step s = .next t → s.status = .runnable → t.status ≠ .waitingForInput →
    step { s with inQ := s.inQ ++ vs } = .next { t with inQ := t.inQ ++ vs }

/-- What was output before, and whether the host has popped it, does not influence a step. Derived (R32: the core only
appends). -/
def Obligations.EarlierOutputDoesNotInfluenceAStep : Prop :=
  ∀ (s t : State) (old : List Cell), step s = .next t →
    step { s with outQ := old ++ s.outQ } = .next { t with outQ := old ++ t.outQ }
end

