-- ==== Sys2Proof/Laws/State.lean ====
section
/-! SUPPORT. Laws/State.lean: every field after every update of the state, so that no proof unfolds a record update. -/

namespace Sys2Proof.Machine

section raiseError
variable (c : Cause) (s : State)
@[simp] theorem raiseError_cfg : (raiseError c s).cfg = s.cfg := rfl
@[simp] theorem raiseError_ip : (raiseError c s).ip = s.ip := rfl
@[simp] theorem raiseError_rb : (raiseError c s).rb = s.rb := rfl
@[simp] theorem raiseError_status : (raiseError c s).status = .error := rfl
@[simp] theorem raiseError_cause : (raiseError c s).cause = c := rfl
@[simp] theorem raiseError_mem : (raiseError c s).mem = s.mem := rfl
@[simp] theorem raiseError_ext : (raiseError c s).ext = s.ext := rfl
@[simp] theorem raiseError_running : (raiseError c s).running = s.running := rfl
@[simp] theorem raiseError_inQ : (raiseError c s).inQ = s.inQ := rfl
@[simp] theorem raiseError_outQ : (raiseError c s).outQ = s.outQ := rfl
end raiseError

section suspend
variable (s : State)
@[simp] theorem suspend_cfg : (suspend s).cfg = s.cfg := rfl
@[simp] theorem suspend_ip : (suspend s).ip = s.ip := rfl
@[simp] theorem suspend_rb : (suspend s).rb = s.rb := rfl
@[simp] theorem suspend_status : (suspend s).status = .waitingForInput := rfl
@[simp] theorem suspend_cause : (suspend s).cause = s.cause := rfl
@[simp] theorem suspend_mem : (suspend s).mem = s.mem := rfl
@[simp] theorem suspend_ext : (suspend s).ext = s.ext := rfl
@[simp] theorem suspend_running : (suspend s).running = s.running := rfl
@[simp] theorem suspend_inQ : (suspend s).inQ = s.inQ := rfl
@[simp] theorem suspend_outQ : (suspend s).outQ = s.outQ := rfl
end suspend

section halt
variable (s : State)
@[simp] theorem halt_cfg : (halt s).cfg = s.cfg := rfl
@[simp] theorem halt_ip : (halt s).ip = s.ip + 1 := rfl
@[simp] theorem halt_rb : (halt s).rb = s.rb := rfl
@[simp] theorem halt_status : (halt s).status = .halted := rfl
@[simp] theorem halt_cause : (halt s).cause = s.cause := rfl
@[simp] theorem halt_mem : (halt s).mem = s.mem := rfl
@[simp] theorem halt_ext : (halt s).ext = s.ext := rfl
@[simp] theorem halt_running : (halt s).running = s.running := rfl
@[simp] theorem halt_inQ : (halt s).inQ = s.inQ := rfl
@[simp] theorem halt_outQ : (halt s).outQ = s.outQ := rfl
end halt

section memWrite
variable (a : Nat) (v : Cell) (s : State)
@[simp] theorem memWrite_cfg : (memWrite a v s).cfg = s.cfg := rfl
@[simp] theorem memWrite_ip : (memWrite a v s).ip = s.ip := rfl
@[simp] theorem memWrite_rb : (memWrite a v s).rb = s.rb := rfl
@[simp] theorem memWrite_status : (memWrite a v s).status = s.status := rfl
@[simp] theorem memWrite_cause : (memWrite a v s).cause = s.cause := rfl
@[simp] theorem memWrite_mem : (memWrite a v s).mem = s.mem.write a v := rfl
@[simp] theorem memWrite_ext : (memWrite a v s).ext = max s.ext (a + 1) := rfl
@[simp] theorem memWrite_running : (memWrite a v s).running = s.running := rfl
@[simp] theorem memWrite_inQ : (memWrite a v s).inQ = s.inQ := rfl
@[simp] theorem memWrite_outQ : (memWrite a v s).outQ = s.outQ := rfl
end memWrite

section advance
variable (len : Nat) (dst : Option Nat) (s : State)
@[simp] theorem advance_cfg : (advance len dst s).cfg = s.cfg := rfl
@[simp] theorem advance_ip : (advance len dst s).ip = nextIp s len dst := rfl
@[simp] theorem advance_rb : (advance len dst s).rb = s.rb := rfl
@[simp] theorem advance_status : (advance len dst s).status = s.status := rfl
@[simp] theorem advance_cause : (advance len dst s).cause = s.cause := rfl
@[simp] theorem advance_mem : (advance len dst s).mem = s.mem := rfl
@[simp] theorem advance_ext : (advance len dst s).ext = s.ext := rfl
@[simp] theorem advance_running : (advance len dst s).running = s.running := rfl
@[simp] theorem advance_inQ : (advance len dst s).inQ = s.inQ := rfl
@[simp] theorem advance_outQ : (advance len dst s).outQ = s.outQ := rfl
end advance

section setIp
variable (t : Nat) (s : State)
@[simp] theorem setIp_cfg : (setIp t s).cfg = s.cfg := rfl
@[simp] theorem setIp_ip : (setIp t s).ip = t := rfl
@[simp] theorem setIp_rb : (setIp t s).rb = s.rb := rfl
@[simp] theorem setIp_status : (setIp t s).status = s.status := rfl
@[simp] theorem setIp_cause : (setIp t s).cause = s.cause := rfl
@[simp] theorem setIp_mem : (setIp t s).mem = s.mem := rfl
@[simp] theorem setIp_ext : (setIp t s).ext = s.ext := rfl
@[simp] theorem setIp_running : (setIp t s).running = s.running := rfl
@[simp] theorem setIp_inQ : (setIp t s).inQ = s.inQ := rfl
@[simp] theorem setIp_outQ : (setIp t s).outQ = s.outQ := rfl
end setIp

section setRb
variable (x : Cell) (s : State)
@[simp] theorem setRb_cfg : (setRb x s).cfg = s.cfg := rfl
@[simp] theorem setRb_ip : (setRb x s).ip = s.ip := rfl
@[simp] theorem setRb_rb : (setRb x s).rb = x := rfl
@[simp] theorem setRb_status : (setRb x s).status = s.status := rfl
@[simp] theorem setRb_cause : (setRb x s).cause = s.cause := rfl
@[simp] theorem setRb_mem : (setRb x s).mem = s.mem := rfl
@[simp] theorem setRb_ext : (setRb x s).ext = s.ext := rfl
@[simp] theorem setRb_running : (setRb x s).running = s.running := rfl
@[simp] theorem setRb_inQ : (setRb x s).inQ = s.inQ := rfl
@[simp] theorem setRb_outQ : (setRb x s).outQ = s.outQ := rfl
end setRb

section setInQ
variable (rest : List Cell) (s : State)
@[simp] theorem setInQ_cfg : (setInQ rest s).cfg = s.cfg := rfl
@[simp] theorem setInQ_ip : (setInQ rest s).ip = s.ip := rfl
@[simp] theorem setInQ_rb : (setInQ rest s).rb = s.rb := rfl
@[simp] theorem setInQ_status : (setInQ rest s).status = s.status := rfl
@[simp] theorem setInQ_cause : (setInQ rest s).cause = s.cause := rfl
@[simp] theorem setInQ_mem : (setInQ rest s).mem = s.mem := rfl
@[simp] theorem setInQ_ext : (setInQ rest s).ext = s.ext := rfl
@[simp] theorem setInQ_running : (setInQ rest s).running = s.running := rfl
@[simp] theorem setInQ_inQ : (setInQ rest s).inQ = rest := rfl
@[simp] theorem setInQ_outQ : (setInQ rest s).outQ = s.outQ := rfl
end setInQ

section outPush
variable (v : Cell) (s : State)
@[simp] theorem outPush_cfg : (outPush v s).cfg = s.cfg := rfl
@[simp] theorem outPush_ip : (outPush v s).ip = s.ip := rfl
@[simp] theorem outPush_rb : (outPush v s).rb = s.rb := rfl
@[simp] theorem outPush_status : (outPush v s).status = s.status := rfl
@[simp] theorem outPush_cause : (outPush v s).cause = s.cause := rfl
@[simp] theorem outPush_mem : (outPush v s).mem = s.mem := rfl
@[simp] theorem outPush_ext : (outPush v s).ext = s.ext := rfl
@[simp] theorem outPush_running : (outPush v s).running = s.running := rfl
@[simp] theorem outPush_inQ : (outPush v s).inQ = s.inQ := rfl
@[simp] theorem outPush_outQ : (outPush v s).outQ = s.outQ ++ [v] := rfl
end outPush

section leaveRun
variable (s : State)
@[simp] theorem leaveRun_cfg : (leaveRun s).cfg = s.cfg := rfl
@[simp] theorem leaveRun_ip : (leaveRun s).ip = s.ip := rfl
@[simp] theorem leaveRun_rb : (leaveRun s).rb = s.rb := rfl
@[simp] theorem leaveRun_status : (leaveRun s).status = s.status := rfl
@[simp] theorem leaveRun_cause : (leaveRun s).cause = s.cause := rfl
@[simp] theorem leaveRun_mem : (leaveRun s).mem = s.mem := rfl
@[simp] theorem leaveRun_ext : (leaveRun s).ext = s.ext := rfl
@[simp] theorem leaveRun_running : (leaveRun s).running = false := rfl
@[simp] theorem leaveRun_inQ : (leaveRun s).inQ = s.inQ := rfl
@[simp] theorem leaveRun_outQ : (leaveRun s).outQ = s.outQ := rfl
end leaveRun

section pushInput
variable (v : Cell) (s : State)
@[simp] theorem pushInput_cfg : (pushInput v s).cfg = s.cfg := rfl
@[simp] theorem pushInput_ip : (pushInput v s).ip = s.ip := rfl
@[simp] theorem pushInput_rb : (pushInput v s).rb = s.rb := rfl
@[simp] theorem pushInput_status : (pushInput v s).status = s.status := rfl
@[simp] theorem pushInput_cause : (pushInput v s).cause = s.cause := rfl
@[simp] theorem pushInput_mem : (pushInput v s).mem = s.mem := rfl
@[simp] theorem pushInput_ext : (pushInput v s).ext = s.ext := rfl
@[simp] theorem pushInput_running : (pushInput v s).running = s.running := rfl
@[simp] theorem pushInput_inQ : (pushInput v s).inQ = s.inQ ++ [v] := rfl
@[simp] theorem pushInput_outQ : (pushInput v s).outQ = s.outQ := rfl
end pushInput

/-! `NextIp` (R75) -/

@[simp] theorem nextIp_none (s : State) (len : Nat) : nextIp s len none = s.ip + len := by simp [nextIp]

@[simp] theorem nextIp_some (s : State) (len w : Nat) :
    nextIp s len (some w) = if s.cfg.tightLoop = true ∧ w = s.ip then s.ip else s.ip + len := by simp [nextIp]

/-- The next ip lies between ip and ip + length, whatever the quirk does. -/
theorem nextIp_bounds (s : State) (len : Nat) (dst : Option Nat) :
    s.ip ≤ nextIp s len dst ∧ nextIp s len dst ≤ s.ip + len := by
  unfold nextIp
  by_cases h : s.cfg.tightLoop = true ∧ dst = some s.ip
  · rw [if_pos h]; omega
  · rw [if_neg h]; omega

/-- An instruction without a write slot advances by its length (R75). -/
theorem advance_none (len : Nat) (s : State) : advance len none s = { s with ip := s.ip + len } := by
  rw [advance, nextIp_none]

/-! `enterRun` and `State.load` -/

@[simp] theorem enterRun_cfg (s : State) : (enterRun s).cfg = s.cfg := by unfold enterRun; split <;> rfl
@[simp] theorem enterRun_ip (s : State) : (enterRun s).ip = s.ip := by unfold enterRun; split <;> rfl
@[simp] theorem enterRun_rb (s : State) : (enterRun s).rb = s.rb := by unfold enterRun; split <;> rfl
@[simp] theorem enterRun_cause (s : State) : (enterRun s).cause = s.cause := by unfold enterRun; split <;> rfl
@[simp] theorem enterRun_mem (s : State) : (enterRun s).mem = s.mem := by unfold enterRun; split <;> rfl
@[simp] theorem enterRun_ext (s : State) : (enterRun s).ext = s.ext := by unfold enterRun; split <;> rfl
@[simp] theorem enterRun_inQ (s : State) : (enterRun s).inQ = s.inQ := by unfold enterRun; split <;> rfl
@[simp] theorem enterRun_outQ (s : State) : (enterRun s).outQ = s.outQ := by unfold enterRun; split <;> rfl

/-- A RUN that starts puts the machine in status Runnable with `running` set (R208). -/
theorem enterRun_eq_of_not_terminal (s : State) (h1 : s.status ≠ .halted) (h2 : s.status ≠ .error) :
    enterRun s = { s with status := .runnable, running := true } := by
  cases s with
  | mk cfg ip rb status cause mem ext running inQ outQ => cases status <;> simp_all [enterRun]

/-- The one-step view of RUN's return (R208): with nothing running it changes nothing. -/
@[simp] theorem leaveRun_eq_self (s : State) (h : s.running = false) : leaveRun s = s := by
  cases s with
  | mk cfg ip rb status cause mem ext running inQ outQ => cases h; rfl

@[simp] theorem leaveRun_leaveRun (s : State) : leaveRun (leaveRun s) = leaveRun s := rfl

section load
variable (c : Config) (p : List Cell)
@[simp] theorem load_cfg : (State.load c p).cfg = c := rfl
@[simp] theorem load_ip : (State.load c p).ip = 0 := rfl
@[simp] theorem load_rb : (State.load c p).rb = 0 := rfl
@[simp] theorem load_status : (State.load c p).status = .runnable := rfl
@[simp] theorem load_cause : (State.load c p).cause = .none := rfl
@[simp] theorem load_mem : (State.load c p).mem = Memory.ofProgram p 0 := rfl
@[simp] theorem load_ext : (State.load c p).ext = p.length := rfl
@[simp] theorem load_running : (State.load c p).running = false := rfl
@[simp] theorem load_inQ : (State.load c p).inQ = [] := rfl
@[simp] theorem load_outQ : (State.load c p).outQ = [] := rfl
end load

/-- Reset is LOAD of the empty program at the default parameters (R240, R241; log 4). -/
theorem reset_eq_load : State.reset = State.load Config.default [] := rfl

end Sys2Proof.Machine
end

