-- ==== Sys2Proof/Laws/Memory.lean ====
section
/-! SUPPORT. Laws/Memory.lean: reads after writes, and that every memory operation keeps the canonical form. -/

namespace Sys2Proof.Machine

/-- Every address listed before a given one is strictly smaller: the canonical form, seen from the head. -/
theorem Memory.wf_cons {b : Nat} {w : Cell} {m : Memory} :
    Memory.wf ((b, w) :: m) ↔ (∀ p ∈ m, b < p.1) ∧ w ≠ 0 ∧ m.wf := by
  simp only [Memory.wf, List.pairwise_cons, List.mem_cons, forall_eq_or_imp]
  tauto

theorem Memory.wf_nil : Memory.wf [] := ⟨List.Pairwise.nil, by simp⟩

theorem Memory.read_eq_zero {m : Memory} {a : Nat} (h : ∀ p ∈ m, p.1 ≠ a) : m.read a = 0 := by
  induction m with
  | nil => rfl
  | cons p m ih =>
    obtain ⟨b, w⟩ := p
    have hb : a ≠ b := fun e => h (b, w) (by simp) e.symm
    simp only [Memory.read, hb, if_false]
    exact ih fun p hp => h p (by simp [hp])

/-- What a read gives is either 0 or listed at that address. -/
theorem Memory.read_mem (m : Memory) (a : Nat) : m.read a = 0 ∨ (a, m.read a) ∈ m := by
  induction m with
  | nil => exact .inl rfl
  | cons p m ih =>
    obtain ⟨b, w⟩ := p
    simp only [Memory.read]
    split
    · subst a; exact .inr (by simp)
    · exact ih.imp id fun h => by simp [h]

/-- Read after write (R42): the written cell holds the value and every other cell is as before. -/
theorem Memory.read_write {m : Memory} (h : m.wf) (a b : Nat) (v : Cell) :
    (m.write a v).read b = if b = a then v else m.read b := by
  induction m with
  | nil => simp only [Memory.write]; split <;> simp_all [Memory.read]
  | cons p m ih =>
    obtain ⟨c, w⟩ := p
    obtain ⟨hlt, -, hm⟩ := Memory.wf_cons.1 h
    have beyond : ∀ x, x ≤ c → Memory.read m x = 0 := fun x hx =>
      Memory.read_eq_zero fun p hp e => by have := hlt p hp; omega
    simp only [Memory.write]
    split
    · split
      · subst v
        by_cases e : b = a
        · subst e; simp [Memory.read, show ¬ b = c by omega, beyond b (by omega)]
        · simp [e]
      · rw [Memory.read]
    · split
      · subst a
        split
        · subst v
          by_cases e : b = c
          · subst e; simp [beyond b le_rfl]
          · simp [Memory.read, e]
        · by_cases e : b = c <;> simp [Memory.read, e]
      · simp only [Memory.read, ih hm]
        by_cases e : b = c
        · subst e; simp [show ¬ b = a by omega]
        · simp [e]

/-- An entry after a write is the written one or an old one. -/
theorem Memory.mem_of_mem_write {m : Memory} {a : Nat} {v : Cell} {p : Nat × Cell} (h : p ∈ m.write a v) :
    p = (a, v) ∨ p ∈ m := by
  induction m with
  | nil => simp only [Memory.write] at h; split at h <;> simp_all
  | cons q m ih =>
    obtain ⟨b, w⟩ := q
    simp only [Memory.write] at h
    split_ifs at h <;> simp_all <;> tauto

/-- A write keeps the canonical form. -/
theorem Memory.write_wf {m : Memory} (h : m.wf) (a : Nat) (v : Cell) : (m.write a v).wf := by
  induction m with
  | nil => by_cases e : v = 0 <;> simp [Memory.write, Memory.wf, e]
  | cons q m ih =>
    obtain ⟨b, w⟩ := q
    obtain ⟨hlt, hw, hm⟩ := Memory.wf_cons.1 h
    simp only [Memory.write]
    split
    · split
      · exact h
      · rename_i hab e
        refine Memory.wf_cons.2 ⟨?_, e, h⟩
        intro p hp
        rcases List.mem_cons.1 hp with rfl | hp
        · exact hab
        · exact lt_trans hab (hlt p hp)
    · split
      · subst a
        split
        · exact hm
        · rename_i e; exact Memory.wf_cons.2 ⟨hlt, e, hm⟩
      · refine Memory.wf_cons.2 ⟨?_, hw, ih hm⟩
        intro p hp
        rcases Memory.mem_of_mem_write hp with rfl | hp
        · simp only; omega
        · exact hlt p hp

/-- A loaded program is in canonical form, and its entries lie in its own range. -/
theorem Memory.ofProgram_spec (cells : List Cell) (base : Nat) :
    (Memory.ofProgram cells base).wf ∧
      ∀ p ∈ Memory.ofProgram cells base, base ≤ p.1 ∧ p.1 < base + cells.length ∧ p.2 ∈ cells := by
  induction cells generalizing base with
  | nil => exact ⟨Memory.wf_nil, by simp [Memory.ofProgram]⟩
  | cons c cs ih =>
    obtain ⟨hwf, hmem⟩ := ih (base + 1)
    have hrest : ∀ p ∈ Memory.ofProgram cs (base + 1),
        base ≤ p.1 ∧ p.1 < base + (c :: cs).length ∧ p.2 ∈ c :: cs := fun p hp => by
      obtain ⟨h1, h2, h3⟩ := hmem p hp
      exact ⟨by omega, by simp only [List.length_cons]; omega, by simp [h3]⟩
    simp only [Memory.ofProgram]
    split
    · exact ⟨hwf, hrest⟩
    · rename_i hc
      refine ⟨Memory.wf_cons.2 ⟨fun p hp => by have := (hmem p hp).1; omega, hc, hwf⟩, fun p hp => ?_⟩
      rcases List.mem_cons.1 hp with rfl | hp
      · exact ⟨le_rfl, by simp, by simp⟩
      · exact hrest p hp

/-- A loaded program's cells read back at their addresses, and 0 everywhere else (R240). -/
theorem Memory.read_ofProgram (cells : List Cell) (base a : Nat) (h : base ≤ a) :
    (Memory.ofProgram cells base).read a = cells.getD (a - base) 0 := by
  induction cells generalizing base with
  | nil => simp [Memory.ofProgram, Memory.read]
  | cons c cs ih =>
    have hspec := (Memory.ofProgram_spec cs (base + 1)).2
    rcases Nat.eq_or_lt_of_le h with rfl | hlt
    · have h0 : Memory.read (Memory.ofProgram cs (base + 1)) base = 0 :=
        Memory.read_eq_zero fun p hp e => by have := (hspec p hp).1; omega
      simp only [Memory.ofProgram]
      split
      · simp_all
      · simp [Memory.read]
    · have e : a - base = a - (base + 1) + 1 := by omega
      simp only [Memory.ofProgram, e, List.getD_cons_succ]
      split
      · exact ih (base + 1) hlt
      · simp only [Memory.read, show ¬ a = base by omega, if_false]
        exact ih (base + 1) hlt

/-- Canonical memories that read alike are equal: the list form loses nothing (R44). -/
theorem Memory.ext_of_read {m n : Memory} (hm : m.wf) (hn : n.wf) (h : ∀ a, m.read a = n.read a) : m = n := by
  induction m generalizing n with
  | nil =>
    cases n with
    | nil => rfl
    | cons q n =>
      obtain ⟨c, x⟩ := q
      have := h c
      simp [Memory.read] at this
      exact absurd this.symm (Memory.wf_cons.1 hn).2.1
  | cons p m ih =>
    obtain ⟨b, w⟩ := p
    obtain ⟨hb, hw, hm'⟩ := Memory.wf_cons.1 hm
    cases n with
    | nil =>
      have := h b
      simp [Memory.read] at this
      exact absurd this hw
    | cons q n =>
      obtain ⟨c, x⟩ := q
      obtain ⟨hc, hx, hn'⟩ := Memory.wf_cons.1 hn
      have below : ∀ (k : Memory) (d e : Nat), (∀ p ∈ k, d < p.1) → e ≤ d → Memory.read k e = 0 := fun k d e hk he =>
        Memory.read_eq_zero fun p hp e' => by have := hk p hp; omega
      have hbc : b = c := by
        rcases lt_trichotomy b c with hlt | heq | hgt
        · have := h b
          simp [Memory.read, show ¬ b = c by omega, below n c b hc (by omega)] at this
          exact absurd this hw
        · exact heq
        · have := h c
          simp [Memory.read, show ¬ c = b by omega, below m b c hb (by omega)] at this
          exact absurd this.symm hx
      subst hbc
      have hwx : w = x := by simpa [Memory.read] using h b
      subst hwx
      rw [ih hm' hn' fun a => ?_]
      by_cases e : a = b
      · subst e; rw [below m a a hb le_rfl, below n a a hc le_rfl]
      · simpa [Memory.read, e] using h a

/-! ### MemRead and MemWrite -/

/-- A cell at or beyond the extent reads 0, and with the memory invariant that is what the list holds (R28). -/
theorem memRead_eq_read {s : State} (h : s.MemoryOk) (a : Nat) : memRead s a = s.mem.read a := by
  unfold memRead
  split
  · rfl
  · rename_i hlt
    refine (Memory.read_eq_zero fun p hp e => ?_).symm
    have := (h.2.1 p hp).1
    omega

theorem memRead_eq_zero_of_ext_le {s : State} {a : Nat} (h : s.ext ≤ a) : memRead s a = 0 := by
  simp [memRead, show ¬ a < s.ext by omega]

/-- MemWrite keeps the memory invariant, for the addresses and values it is called with (R42). -/
theorem memWrite_memoryOk {s : State} (h : s.MemoryOk) {a : Nat} {v : Cell} (ha : a < s.cfg.memLimit)
    (hv : s.cfg.InCell v) : (memWrite a v s).MemoryOk := by
  obtain ⟨hwf, hmem, hext⟩ := h
  refine ⟨Memory.write_wf hwf a v, fun p hp => ?_, ?_⟩
  · simp only [memWrite_ext, memWrite_cfg]
    rcases Memory.mem_of_mem_write hp with rfl | hp
    · exact ⟨by simp, hv⟩
    · exact ⟨lt_of_lt_of_le (hmem p hp).1 (le_max_left _ _), (hmem p hp).2⟩
  · simp only [memWrite_ext, memWrite_cfg]; omega

/-- MemRead after MemWrite (R41, R42). -/
theorem memRead_memWrite {s : State} (h : s.MemoryOk) (a b : Nat) (v : Cell) :
    memRead (memWrite a v s) b = if b = a then v else memRead s b := by
  have hz : ∀ x, s.ext ≤ x → s.mem.read x = 0 := fun x hx =>
    Memory.read_eq_zero fun p hp e => by have := (h.2.1 p hp).1; omega
  simp only [memRead, memWrite_ext, memWrite_mem, Memory.read_write h.1]
  by_cases e : b = a
  · subst e; simp
  · simp only [e, if_false]
    by_cases hb : b < s.ext
    · simp [hb]
    · simp [hb, hz b (by omega)]

/-- The updates that leave memory and extent alone leave every read alone. -/
theorem memRead_congr {s t : State} (hm : t.mem = s.mem) (he : t.ext = s.ext) (a : Nat) : memRead t a = memRead s a := by
  simp [memRead, hm, he]

/-- Every cell of a legal state is a cell value. -/
theorem memRead_inCell {s : State} (h : s.MemoryOk) (a : Nat) : s.cfg.InCell (memRead s a) := by
  have zero : s.cfg.InCell 0 := by
    have : (0 : Int) < 2 ^ (s.cfg.width - 1) := by positivity
    constructor <;> simp only [Config.cmin, Config.cmax] <;> omega
  rw [memRead_eq_read h]
  rcases Memory.read_mem s.mem a with e | hin
  · rw [e]; exact zero
  · exact (h.2.1 _ hin).2

end Sys2Proof.Machine
end

