-- ==== Sys2Proof/Laws/Operands.lean ====
section
/-! SUPPORT. Laws/Operands.lean: everything operand resolution and the ALU can answer. -/

namespace Sys2Proof.Machine

/-! ### Cells -/

theorem zero_inCell (c : Config) : c.InCell 0 := by
  have : (0 : Int) < 2 ^ (c.width - 1) := by positivity
  constructor <;> simp only [Config.cmin, Config.cmax] <;> omega

theorem truthCell_inCell {c : Config} (h : c.Legal) (b : Bool) : c.InCell (truthCell b) := by
  have hw : c.width - 1 = (c.width - 2) + 1 := by have := h.1; omega
  have : (0 : Int) < 2 ^ (c.width - 2) := by positivity
  have e : (2 : Int) ^ (c.width - 1) = 2 ^ (c.width - 2) * 2 := by rw [hw, pow_succ]
  cases b with
  | false => exact zero_inCell c
  | true => constructor <;> simp only [Config.cmin, Config.cmax, truthCell, e, if_true] <;> omega

/-- An address of a legal machine is a cell value. -/
theorem inCell_of_inAddr {c : Config} {a : Int} (h : c.InAddr a) : c.InCell a := by
  have : (0 : Int) < 2 ^ (c.width - 1) := by positivity
  refine ⟨?_, h.2⟩
  have := h.1
  simp only [Config.cmin]
  omega

/-! ### The ALU (R8) -/

theorem wrap_inCell {c : Config} (h : c.Legal) (x : Int) : c.InCell (wrap c x) := by
  have hw : c.width = (c.width - 1) + 1 := by have := h.1; omega
  have e : (2 : Int) ^ c.width = 2 ^ (c.width - 1) * 2 := by conv_lhs => rw [hw, pow_succ]
  have hp : (0 : Int) < 2 ^ c.width := by positivity
  have h0 := Int.emod_nonneg (x - c.cmin) hp.ne'
  have h1 := Int.emod_lt_of_pos (x - c.cmin) hp
  constructor <;> simp only [wrap, Config.cmin, Config.cmax] at * <;> omega

/-- `wrap(x)` is congruent to `x` modulo 2^P_W. -/
theorem wrap_emod (c : Config) (x : Int) : wrap c x % 2 ^ c.width = x % 2 ^ c.width := by
  simp [wrap]

theorem alu_of_inCell {c : Config} {x : Int} (h : c.InCell x) : alu c x = .ok x := by simp [alu, h]

theorem alu_wrap {c : Config} {x : Int} (h : ¬ c.InCell x) (hm : c.overflow = .wrap) : alu c x = .ok (wrap c x) := by
  simp only [alu, h, if_false, hm]

theorem alu_fault {c : Config} {x : Int} (h : ¬ c.InCell x) (hm : c.overflow = .fault) : alu c x = .error .overflow := by
  simp only [alu, h, if_false, hm]

/-- What the ALU answers when it answers a value. -/
theorem alu_ok {c : Config} {x : Int} {r : Cell} (h : alu c x = .ok r) :
    (c.InCell x ∧ r = x) ∨ (¬ c.InCell x ∧ c.overflow = .wrap ∧ r = wrap c x) := by
  unfold alu at h
  split at h
  · rename_i hx; cases h; exact .inl ⟨hx, rfl⟩
  · rename_i hx
    split at h
    · rename_i hm; cases h; exact .inr ⟨hx, hm, rfl⟩
    · cases h

/-- The ALU's one error. -/
theorem alu_error {c : Config} {x : Int} {e : Cause} (h : alu c x = .error e) :
    e = .overflow ∧ c.overflow = .fault ∧ ¬ c.InCell x := by
  unfold alu at h
  split at h
  · cases h
  · rename_i hx
    split at h
    · cases h
    · rename_i hm; cases h; exact ⟨rfl, hm, hx⟩

theorem alu_ok_inCell {c : Config} (hc : c.Legal) {x : Int} {r : Cell} (h : alu c x = .ok r) : c.InCell r := by
  rcases alu_ok h with ⟨hx, rfl⟩ | ⟨-, -, rfl⟩
  · exact hx
  · exact wrap_inCell hc x

/-! ### Addresses and operands (R66, R67) -/

theorem checkAddress_ok {c : Config} {a : Int} {n : Nat} (h : checkAddress c a = .ok n) : c.InAddr a ∧ n = a.toNat := by
  unfold checkAddress at h
  split at h
  · rename_i ha; cases h; exact ⟨ha, rfl⟩
  · cases h

theorem checkAddress_error {c : Config} {a : Int} {e : Cause} (h : checkAddress c a = .error e) :
    e = .badAddress ∧ ¬ c.InAddr a := by
  unfold checkAddress at h
  split at h
  · cases h
  · rename_i ha; cases h; exact ⟨rfl, ha⟩

theorem readAt_of_inAddr {s : State} {a : Int} (h : s.cfg.InAddr a) : readAt s a = .ok (memRead s a.toNat) := by
  simp only [readAt, checkAddress, if_pos h]

theorem readAt_of_not_inAddr {s : State} {a : Int} (h : ¬ s.cfg.InAddr a) : readAt s a = .error .badAddress := by
  simp only [readAt, checkAddress, if_neg h]

theorem readAt_cases (s : State) (a : Int) :
    (s.cfg.InAddr a ∧ readAt s a = .ok (memRead s a.toNat)) ∨ (¬ s.cfg.InAddr a ∧ readAt s a = .error .badAddress) := by
  by_cases h : s.cfg.InAddr a
  · exact .inl ⟨h, readAt_of_inAddr h⟩
  · exact .inr ⟨h, readAt_of_not_inAddr h⟩

/-- Reading an operand can raise BAD_ADDRESS only. -/
theorem resolveRead_error {s : State} {op : ReadOperand} {e : Cause} (h : resolveRead s op = .error e) :
    e = .badAddress := by
  have key : ∀ a, readAt s a = .error e → e = .badAddress := fun a ha => by
    rcases readAt_cases s a with ⟨-, hr⟩ | ⟨-, hr⟩ <;> rw [hr] at ha <;> cases ha
    rfl
  cases op with
  | position p => exact key _ h
  | immediate p => cases h
  | relative p => exact key _ h

/-- An operand value is a cell value, if the raw parameter of an Immediate one is. -/
theorem resolveRead_inCell {s : State} (hm : s.MemoryOk) {op : ReadOperand} (hp : s.cfg.InCell op.raw) {x : Cell}
    (h : resolveRead s op = .ok x) : s.cfg.InCell x := by
  have key : ∀ a, readAt s a = .ok x → s.cfg.InCell x := fun a ha => by
    rcases readAt_cases s a with ⟨-, hr⟩ | ⟨-, hr⟩ <;> rw [hr] at ha <;> cases ha
    exact memRead_inCell hm _
  cases op with
  | position p => exact key _ h
  | immediate p => cases h; exact hp
  | relative p => exact key _ h

/-- A write slot that resolves names an address of the machine below its capacity. -/
theorem resolveWrite_ok {s : State} {d : WriteOperand} {n : Nat} (h : resolveWrite s d = .ok n) :
    s.cfg.InAddr (writeTarget s d) ∧ n = (writeTarget s d).toNat ∧ n < s.cfg.memLimit := by
  unfold resolveWrite at h
  split at h
  · rename_i hc
    split at h
    · rename_i hl; cases h; obtain ⟨h1, h2⟩ := checkAddress_ok hc; exact ⟨h1, h2, hl⟩
    · cases h
  · cases h

theorem resolveWrite_of {s : State} {d : WriteOperand} (ha : s.cfg.InAddr (writeTarget s d))
    (hl : (writeTarget s d).toNat < s.cfg.memLimit) : resolveWrite s d = .ok (writeTarget s d).toNat := by
  simp only [resolveWrite, checkAddress, if_pos ha, if_pos hl]

/-- A write slot can raise BAD_ADDRESS, or MEMORY_EXHAUSTED at or above the capacity. -/
theorem resolveWrite_error {s : State} {d : WriteOperand} {e : Cause} (h : resolveWrite s d = .error e) :
    (e = .badAddress ∧ ¬ s.cfg.InAddr (writeTarget s d)) ∨
      (e = .memoryExhausted ∧ s.cfg.InAddr (writeTarget s d) ∧ s.cfg.memLimit ≤ (writeTarget s d).toNat) := by
  unfold resolveWrite at h
  split at h
  · rename_i hc
    obtain ⟨h1, rfl⟩ := checkAddress_ok hc
    split at h
    · cases h
    · rename_i hl; cases h; exact .inr ⟨rfl, h1, by omega⟩
  · rename_i hc
    cases h
    exact .inl (checkAddress_error hc)

/-! ### Operands do not see the queues, the status, the cause or the instruction pointer -/

theorem resolveRead_congr {s t : State} (hc : t.cfg = s.cfg) (hr : t.rb = s.rb) (hm : t.mem = s.mem) (he : t.ext = s.ext)
    (op : ReadOperand) : resolveRead t op = resolveRead s op := by
  have key : ∀ a, readAt t a = readAt s a := fun a => by
    simp only [readAt, hc]
    cases checkAddress s.cfg a with
    | ok n => simp only [memRead_congr hm he]
    | error e => rfl
  cases op with
  | position p => exact key _
  | immediate p => rfl
  | relative p => simp only [resolveRead, key, hr]

theorem resolveWrite_congr {s t : State} (hc : t.cfg = s.cfg) (hr : t.rb = s.rb) (d : WriteOperand) :
    resolveWrite t d = resolveWrite s d := by
  cases d <;> simp [resolveWrite, writeTarget, hc, hr]

end Sys2Proof.Machine
end

