-- ==== Sys2Proof/Laws/Exec.lean ====
section
/-! SUPPORT. Laws/Exec.lean: once, everything an instruction can do (R76). Proofs cite `exec_cases` instead of unfolding
the meanings. -/

namespace Sys2Proof.Machine

/-- The two jumps (R123). -/
def IsJump (i : Instr) (target : ReadOperand) : Prop := ∃ c, i = .jt c target ∨ i = .jf c target

/-- The instructions that compute a result and store it (opcodes 1, 2, 7 and 8; R100). -/
def IsStore (i : Instr) : Prop := ∃ a b d, i = .add a b d ∨ i = .mul a b d ∨ i = .lt a b d ∨ i = .eq a b d

/-- Why an instruction's own part of a step can raise an error (R202). -/
inductive RaiseCase (i : Instr) (s : State) : Cause → Prop where
  | badAddress (h : i ≠ .hlt) : RaiseCase i s .badAddress
  | memoryExhausted (d : WriteOperand) (hd : i.writeSlot = some d) (ha : s.cfg.InAddr (writeTarget s d))
      (hl : s.cfg.memLimit ≤ (writeTarget s d).toNat) : RaiseCase i s .memoryExhausted
  | badJumpTarget (target : ReadOperand) (h : IsJump i target) (x : Cell) (hx : resolveRead s target = .ok x)
      (hneg : x < 0) : RaiseCase i s .badJumpTarget
  | overflow (h : (∃ a b d, i = .add a b d ∨ i = .mul a b d) ∨ ∃ a, i = .arb a) (hf : s.cfg.overflow = .fault) :
      RaiseCase i s .overflow

/-- Everything an instruction can do to the state it runs in. -/
inductive ExecCase (i : Instr) (s : State) : State → Prop where
  | raised (c : Cause) (h : RaiseCase i s c) : ExecCase i s (raiseError c s)
  | stored (hi : IsStore i) (d : WriteOperand) (hd : i.writeSlot = some d) (w : Nat) (hw : resolveWrite s d = .ok w)
      (r : Cell) (hr : s.cfg.Legal → s.cfg.InCell r) : ExecCase i s (advance 4 (some w) (memWrite w r s))
  | suspended (d : WriteOperand) (hi : i = .inp d) (w : Nat) (hw : resolveWrite s d = .ok w) (hq : s.inQ = []) :
      ExecCase i s (suspend s)
  | tookInput (d : WriteOperand) (hi : i = .inp d) (w : Nat) (hw : resolveWrite s d = .ok w) (x : Cell)
      (rest : List Cell) (hq : s.inQ = x :: rest) : ExecCase i s (advance 2 (some w) (setInQ rest (memWrite w x s)))
  | output (a : ReadOperand) (hi : i = .out a) (x : Cell) (hx : resolveRead s a = .ok x) :
      ExecCase i s (advance 2 none (outPush x s))
  | jumped (target : ReadOperand) (hi : IsJump i target) (x : Cell) (hx : resolveRead s target = .ok x) (hn : 0 ≤ x) :
      ExecCase i s (setIp x.toNat s)
  | fellThrough (target : ReadOperand) (hi : IsJump i target) : ExecCase i s (advance 3 none s)
  | rebased (a : ReadOperand) (hi : i = .arb a) (x : Cell) (hx : resolveRead s a = .ok x) (r : Cell)
      (hr : alu s.cfg (s.rb + x) = .ok r) : ExecCase i s (advance 2 none (setRb r s))
  | halted (hi : i = .hlt) : ExecCase i s (halt s)

/-- Going on after a check: either the check passed, or the step ended with its error. -/
theorem orRaise_next {α : Type} {s t : State} {r : Except Cause α} {k : α → Host.Outcome State Fault Refusal}
    (h : orRaise s r k = .next t) : (∃ x, r = .ok x ∧ k x = .next t) ∨ ∃ c, r = .error c ∧ t = raiseError c s := by
  cases r with
  | ok x => exact .inl ⟨x, rfl, h⟩
  | error c => cases h; exact .inr ⟨c, rfl, rfl⟩

@[simp] theorem orRaise_ok {α : Type} (s : State) (x : α) (k : α → Host.Outcome State Fault Refusal) :
    orRaise s (.ok x) k = k x := rfl

@[simp] theorem orRaise_error {α : Type} (s : State) (c : Cause) (k : α → Host.Outcome State Fault Refusal) :
    orRaise s (.error c) k = .next (raiseError c s) := rfl

theorem raiseCase_of_resolveRead {i : Instr} {s : State} {op : ReadOperand} {c : Cause} (hi : i ≠ .hlt)
    (h : resolveRead s op = .error c) : RaiseCase i s c := by
  rw [resolveRead_error h]; exact .badAddress hi

theorem raiseCase_of_resolveWrite {i : Instr} {s : State} {d : WriteOperand} {c : Cause} (hi : i.writeSlot = some d)
    (h : resolveWrite s d = .error c) : RaiseCase i s c := by
  rcases resolveWrite_error h with ⟨rfl, -⟩ | ⟨rfl, ha, hl⟩
  · exact .badAddress fun e => by subst e; cases hi
  · exact .memoryExhausted d hi ha hl

/-- What an F4 instruction can do, given what its computation can answer. -/
theorem storeBinary_cases {i : Instr} {f : Cell → Cell → Except Cause Cell} {a b : ReadOperand} {d : WriteOperand}
    {s t : State} (h : storeBinary f a b d s = .next t) (hi : IsStore i) (hd : i.writeSlot = some d)
    (hok : ∀ x y r, f x y = .ok r → s.cfg.Legal → s.cfg.InCell r)
    (herr : ∀ x y c, f x y = .error c → RaiseCase i s c) : ExecCase i s t := by
  have hne : i ≠ .hlt := fun e => by subst e; cases hd
  rcases orRaise_next h with ⟨x, -, h⟩ | ⟨c, hc, rfl⟩
  · rcases orRaise_next h with ⟨y, -, h⟩ | ⟨c, hc, rfl⟩
    · rcases orRaise_next h with ⟨w, hw, h⟩ | ⟨c, hc, rfl⟩
      · rcases orRaise_next h with ⟨r, hr, h⟩ | ⟨c, hc, rfl⟩
        · cases h; exact .stored hi d hd w hw r (hok x y r hr)
        · exact .raised c (herr x y c hc)
      · exact .raised c (raiseCase_of_resolveWrite hd hc)
    · exact .raised c (raiseCase_of_resolveRead hne hc)
  · exact .raised c (raiseCase_of_resolveRead hne hc)

/-- What a jump can do. -/
theorem jumpWhen_cases {i : Instr} {f : Cell → Bool} {c target : ReadOperand} {s t : State}
    (h : jumpWhen f c target s = .next t) (hi : IsJump i target) : ExecCase i s t := by
  have hne : i ≠ .hlt := by rintro rfl; obtain ⟨_, h | h⟩ := hi <;> cases h
  rcases orRaise_next h with ⟨x, -, h⟩ | ⟨c, hc, rfl⟩
  · rcases orRaise_next h with ⟨y, hy, h⟩ | ⟨c, hc, rfl⟩
    · split at h
      · unfold jumpTo at h
        split at h
        · rename_i hneg; cases h; exact .raised _ (.badJumpTarget target hi y hy hneg)
        · rename_i hpos; cases h; exact .jumped target hi y hy (not_lt.1 hpos)
      · cases h; exact .fellThrough target hi
    · exact .raised c (raiseCase_of_resolveRead hne hc)
  · exact .raised c (raiseCase_of_resolveRead hne hc)

/-- The inversion lemma of `exec`. -/
theorem exec_cases {i : Instr} {s t : State} (h : exec i s = .next t) : ExecCase i s t := by
  have overflowCase : ∀ {x : Int} {c : Cause}, ((∃ a b d, i = .add a b d ∨ i = .mul a b d) ∨ ∃ a, i = .arb a) →
      alu s.cfg x = .error c → RaiseCase i s c := fun hi he => by
    obtain ⟨rfl, hf, -⟩ := alu_error he
    exact .overflow hi hf
  cases i with
  | add a b d =>
    exact storeBinary_cases h ⟨a, b, d, by simp⟩ rfl (fun _ _ _ hr hl => alu_ok_inCell hl hr)
      fun _ _ _ => overflowCase (.inl ⟨a, b, d, by simp⟩)
  | mul a b d =>
    exact storeBinary_cases h ⟨a, b, d, by simp⟩ rfl (fun _ _ _ hr hl => alu_ok_inCell hl hr)
      fun _ _ _ => overflowCase (.inl ⟨a, b, d, by simp⟩)
  | inp d =>
    rcases orRaise_next h with ⟨w, hw, h⟩ | ⟨c, hc, rfl⟩
    · cases hq : s.inQ with
      | nil => simp only [hq] at h; cases h; exact .suspended d rfl w hw hq
      | cons x rest => simp only [hq] at h; cases h; exact .tookInput d rfl w hw x rest hq
    · exact .raised c (raiseCase_of_resolveWrite rfl hc)
  | out a =>
    rcases orRaise_next h with ⟨x, hx, h⟩ | ⟨c, hc, rfl⟩
    · cases h; exact .output a rfl x hx
    · exact .raised c (raiseCase_of_resolveRead (by simp) hc)
  | jt c target => exact jumpWhen_cases h ⟨c, by simp⟩
  | jf c target => exact jumpWhen_cases h ⟨c, by simp⟩
  | lt a b d =>
    exact storeBinary_cases h ⟨a, b, d, by simp⟩ rfl
      (fun _ _ _ hr hl => by cases hr; exact truthCell_inCell hl _) (fun _ _ _ hr => by cases hr)
  | eq a b d =>
    exact storeBinary_cases h ⟨a, b, d, by simp⟩ rfl
      (fun _ _ _ hr hl => by cases hr; exact truthCell_inCell hl _) (fun _ _ _ hr => by cases hr)
  | arb a =>
    rcases orRaise_next h with ⟨x, hx, h⟩ | ⟨c, hc, rfl⟩
    · rcases orRaise_next h with ⟨r, hr, h⟩ | ⟨c, hc, rfl⟩
      · cases h; exact .rebased a rfl x hx r hr
      · exact .raised c (overflowCase (.inr ⟨a, rfl⟩) hc)
    · exact .raised c (raiseCase_of_resolveRead (by simp) hc)
  | hlt => cases h; exact .halted rfl

end Sys2Proof.Machine
end

