-- ==== Sys2Proof/Laws/PerInstr.lean ====
section
/-! SUPPORT. Laws/PerInstr.lean: the family WordShape, one lemma per constructor of Instr. -/

namespace Sys2Proof.Laws.WordShape

/-- The shape of an encoding (30_encoding.md R64, R80, R81): as many cells as the opcode's length, the opcode in the two
least significant decimal digits, no digit above the third mode, and a word no larger than the largest legal one. -/
def Statement (i : Instr) : Prop :=
  (encode i).length = i.length ∧ encodeWord i % 100 = i.opcode ∧ highDigits (encodeWord i) = 0 ∧ encodeWord i ≤ 22208

theorem digit_le_two (m : Mode) : m.digit ≤ 2 := by cases m <;> decide

/-- The shape follows from a two-digit opcode and the bound on the word. -/
theorem of_bounds {i : Instr} (h : i.opcode < 100) (hw : encodeWord i ≤ 22208) : Statement i := by
  refine ⟨by simp [encode, Instr.length]; omega, ?_, ?_, hw⟩
  · simp only [encodeWord]; omega
  · simp only [highDigits]; omega

theorem add (a b : ReadOperand) (d : WriteOperand) : Statement (.add a b d) := by
  have ha := digit_le_two a.mode
  have hb := digit_le_two b.mode
  have hd := digit_le_two d.mode
  exact of_bounds (by simp [Instr.opcode]) (by simp only [encodeWord, Instr.opcode, Instr.modes, modeDigits]; omega)

theorem mul (a b : ReadOperand) (d : WriteOperand) : Statement (.mul a b d) := by
  have ha := digit_le_two a.mode
  have hb := digit_le_two b.mode
  have hd := digit_le_two d.mode
  exact of_bounds (by simp [Instr.opcode]) (by simp only [encodeWord, Instr.opcode, Instr.modes, modeDigits]; omega)

theorem inp (d : WriteOperand) : Statement (.inp d) := by
  have hd := digit_le_two d.mode
  exact of_bounds (by simp [Instr.opcode]) (by simp only [encodeWord, Instr.opcode, Instr.modes, modeDigits]; omega)

theorem out (a : ReadOperand) : Statement (.out a) := by
  have ha := digit_le_two a.mode
  exact of_bounds (by simp [Instr.opcode]) (by simp only [encodeWord, Instr.opcode, Instr.modes, modeDigits]; omega)

theorem jt (c t : ReadOperand) : Statement (.jt c t) := by
  have hc := digit_le_two c.mode
  have ht := digit_le_two t.mode
  exact of_bounds (by simp [Instr.opcode]) (by simp only [encodeWord, Instr.opcode, Instr.modes, modeDigits]; omega)

theorem jf (c t : ReadOperand) : Statement (.jf c t) := by
  have hc := digit_le_two c.mode
  have ht := digit_le_two t.mode
  exact of_bounds (by simp [Instr.opcode]) (by simp only [encodeWord, Instr.opcode, Instr.modes, modeDigits]; omega)

theorem lt (a b : ReadOperand) (d : WriteOperand) : Statement (.lt a b d) := by
  have ha := digit_le_two a.mode
  have hb := digit_le_two b.mode
  have hd := digit_le_two d.mode
  exact of_bounds (by simp [Instr.opcode]) (by simp only [encodeWord, Instr.opcode, Instr.modes, modeDigits]; omega)

theorem eq (a b : ReadOperand) (d : WriteOperand) : Statement (.eq a b d) := by
  have ha := digit_le_two a.mode
  have hb := digit_le_two b.mode
  have hd := digit_le_two d.mode
  exact of_bounds (by simp [Instr.opcode]) (by simp only [encodeWord, Instr.opcode, Instr.modes, modeDigits]; omega)

theorem arb (a : ReadOperand) : Statement (.arb a) := by
  have ha := digit_le_two a.mode
  exact of_bounds (by simp [Instr.opcode]) (by simp only [encodeWord, Instr.opcode, Instr.modes, modeDigits]; omega)

theorem hlt : Statement .hlt := of_bounds (by decide) (by decide)

end Sys2Proof.Laws.WordShape
end

