-- ==== Sys2Proof/Laws/Step.lean ====
section
/-! SUPPORT. Laws/Step.lean: once, everything one transition of the core can do (R74, R76, R208). -/

namespace Sys2Proof.Machine

/-- Everything one transition can do to the state it starts from. -/
inductive StepCase (s : State) : State → Prop where
  | notEnabled (h : s.status ≠ .runnable) : StepCase s (leaveRun s)
  | runaway (h : s.status = .runnable) (he : s.ext ≤ s.ip) : StepCase s (raiseError .runaway s)
  | undecodable (h : s.status = .runnable) (he : s.ip < s.ext) (e : DecodeError) (hd : decodeAt s = .error e) :
      StepCase s (raiseError (Cause.ofDecodeError e) s)
  | executed (h : s.status = .runnable) (he : s.ip < s.ext) (i : Instr) (hd : decodeAt s = .ok i) (t : State)
      (hx : ExecCase i s t) : StepCase s t

theorem step_of_not_runnable {s : State} (h : s.status ≠ .runnable) : step s = .next (leaveRun s) := by
  unfold step; split <;> simp_all

theorem step_of_runnable {s : State} (h : s.status = .runnable) : step s = fetchDecodeExecute s := by
  unfold step; rw [h]

/-- The inversion lemma of `step`. -/
theorem step_cases {s t : State} (h : step s = .next t) : StepCase s t := by
  by_cases hr : s.status = .runnable
  · rw [step_of_runnable hr, fetchDecodeExecute] at h
    split at h
    · rename_i he
      split at h
      · rename_i i hd; exact .executed hr he i hd t (exec_cases h)
      · rename_i e hd; cases h; exact .undecodable hr he e hd
    · cases h; exact .runaway hr (by omega)
  · rw [step_of_not_runnable hr] at h
    cases h
    exact .notEnabled hr

/-- A decode error is recorded as a cause, never as NONE. -/
theorem ofDecodeError_ne_none (e : DecodeError) : Cause.ofDecodeError e ≠ .none := by cases e <;> decide

theorem raiseCase_ne_none {i : Instr} {s : State} {c : Cause} (h : RaiseCase i s c) : c ≠ .none := by
  cases h <;> decide

/-! ### Fetching sees only memory and ip (R34, R54) -/

theorem decodeAt_congr {s t : State} (hi : t.ip = s.ip) (hm : t.mem = s.mem) (he : t.ext = s.ext) :
    decodeAt t = decodeAt s := by
  simp only [decodeAt, fetchCells, hi, memRead_congr hm he]

end Sys2Proof.Machine
end

