-- ==== Sys2Proof/Laws/Transactions.lean ====
section
/-! SUPPORT. Laws/Transactions.lean: how a host transaction unfolds (R208, R211, R212), and one induction over a RUN. -/

namespace Sys2Proof.Machine

/-- A transaction that goes through found the machine idle (R212). -/
theorem transact_idle {x : Transaction} {s u : State} {r : Reply} (h : transact x s = .next (u, r)) :
    s.running = false := by
  unfold transact at h
  split at h
  · cases h
  · rename_i hr; simpa using hr

/-- RUN on a VM that is not terminal is its loop, entered with status Runnable and `running` set (R208). -/
theorem transact_run_of_not_terminal {s : State} (fuel : Nat) (h : s.running = false) (ht : ¬ s.Terminal) :
    transact (.run fuel) s = runLoop fuel { s with status := .runnable, running := true } := by
  have e : transact (.run fuel) s = runTransaction fuel s := by simp [transact, h]
  rw [e, runTransaction, if_neg ht, enterRun_eq_of_not_terminal]
  · exact fun e => ht (.inl e)
  · exact fun e => ht (.inr e)

/-- The loop returns at once when the status is not Runnable. -/
theorem runLoop_of_not_runnable {s : State} (h : s.status ≠ .runnable) (fuel : Nat) :
    runLoop fuel s = .next (leaveRun s, .status s.status) := by
  cases fuel <;> unfold runLoop <;> rw [if_neg h]

/-- The loop takes a step while the status is Runnable and the budget lasts. -/
theorem runLoop_succ_of_step {s t : State} (hr : s.status = .runnable) (h : step s = .next t) (fuel : Nat) :
    runLoop (fuel + 1) s = runLoop fuel t := by
  rw [runLoop, if_pos hr, h]

/-- A reflexive and transitive relation that every step and the return of RUN respect holds between the ends of a RUN. -/
theorem runLoop_induction (P : State → State → Prop) (hrefl : ∀ s, P s s) (htrans : ∀ s t u, P s t → P t u → P s u)
    (hstep : ∀ s t, step s = .next t → P s t) (hleave : ∀ s, P s (leaveRun s)) (fuel : Nat) :
    ∀ (s t : State) (r : Reply), runLoop fuel s = .next (t, r) → P s t := by
  induction fuel with
  | zero =>
    intro s t r h
    unfold runLoop at h
    split at h <;> cases h
    · exact hrefl _
    · exact hleave _
  | succ fuel ih =>
    intro s t r h
    unfold runLoop at h
    split at h
    · split at h
      · rename_i u hu; exact htrans _ _ _ (hstep _ _ hu) (ih _ _ _ h)
      · cases h
      · cases h
    · cases h; exact hleave _

end Sys2Proof.Machine
end

