-- ==== Sys2Proof/Machine/Assembly.lean ====
section
/-! DEFINITION. Machine/Assembly.lean: the spec's assembler syntax (30_encoding.md R78). It has no effect on the
hardware (92_eei_decisions.md D23); the machine never reads it. Labels are left to the writer of a program. -/

namespace Sys2Proof

/-- A decimal integer. -/
def decimal (x : Cell) : String := if x < 0 then "-" ++ Nat.repr x.natAbs else Nat.repr x.natAbs

/-- `rb+e` or `rb-e`, by the sign of the raw parameter. -/
def relativeText (p : Cell) : String := if p < 0 then "rb" ++ decimal p else "rb+" ++ decimal p

/-- `[e]`, `#e`, `[rb+e]` or `[rb-e]`. -/
def ReadOperand.text : ReadOperand → String
  | .position p => "[" ++ decimal p ++ "]"
  | .immediate p => "#" ++ decimal p
  | .relative p => "[" ++ relativeText p ++ "]"

/-- `[e]`, `[rb+e]` or `[rb-e]`. -/
def WriteOperand.text : WriteOperand → String
  | .position p => "[" ++ decimal p ++ "]"
  | .relative p => "[" ++ relativeText p ++ "]"

/-- The line of an instruction: its mnemonic, then its operands in slot order. -/
def Instr.text : Instr → String
  | .add a b d => "ADD " ++ a.text ++ ", " ++ b.text ++ ", " ++ d.text
  | .mul a b d => "MUL " ++ a.text ++ ", " ++ b.text ++ ", " ++ d.text
  | .inp d => "IN " ++ d.text
  | .out a => "OUT " ++ a.text
  | .jt c t => "JT " ++ c.text ++ ", " ++ t.text
  | .jf c t => "JF " ++ c.text ++ ", " ++ t.text
  | .lt a b d => "LT " ++ a.text ++ ", " ++ b.text ++ ", " ++ d.text
  | .eq a b d => "EQ " ++ a.text ++ ", " ++ b.text ++ ", " ++ d.text
  | .arb a => "ARB " ++ a.text
  | .hlt => "HLT"

/-- A line of assembly: an instruction, or the directive `.cell`, which places raw cell values. -/
inductive AsmLine where
  | instr (i : Instr)
  | cells (vs : List Cell)
deriving DecidableEq, Repr

/-- The cells of a program written in assembly, in order; the address of a cell is its index. -/
def assemble : List AsmLine → List Cell
  | [] => []
  | .instr i :: rest => encode i ++ assemble rest
  | .cells vs :: rest => vs ++ assemble rest

end Sys2Proof
end

