-- ==== Sys2Proof/Tests/Slice0.lean ====
section
/-! SUPPORT. Tests/Slice0.lean: hand-written checks. Expected results come from the spec: the vectors of
95_test_vectors.md (cited by their ids), the table of 30_encoding.md R80, or calculation from the cited rule. The
`witness_…` theorems show, for each obligation with hypotheses, states and operands that meet them. -/

open Sys2Proof Sys2Proof.Machine Sys2Proof.Claims

namespace Sys2Proof.Tests

/-- A loaded program with values in the input queue, at the default parameters. -/
def prog (cells : List Cell) (inputs : List Cell := []) : State :=
  { State.load Config.default cells with inQ := inputs }

/-- The same with Wrap in place of Fault. -/
def progWrap (cells : List Cell) : State := State.load { Config.default with overflow := .wrap } cells

/-- The same with P_MEM_LIMIT = 16. -/
def progSmall (cells : List Cell) : State := State.load { Config.default with memLimit := 16 } cells

/-- The state after one step (R74). -/
def after (s : State) : State :=
  match step s with
  | .next t => t
  | _ => s

def cmax : Cell := 9223372036854775807
def cmin : Cell := -9223372036854775808

/-! ### Configuration (R5, R6) -/

theorem test_default_range : Config.default.cmin = cmin ∧ Config.default.cmax = cmax ∧ Config.default.Legal := by decide
theorem test_range_at_width_8 :
    ({ Config.default with width := 8 } : Config).cmin = -128 ∧ ({ Config.default with width := 8 } : Config).cmax = 127 := by
  decide

/-! ### Well-formedness: an ill-formed term for each check -/

/-- 1101 is no cell of an 8-bit machine. -/
theorem test_wf_refuses_word :
    (Instr.add (.immediate 1) (.immediate 2) (.position 3)).wf
      { width := 8, overflow := .fault, memLimit := 128, tightLoop := false } = false := by decide
theorem test_wf_refuses_parameter_above : (Instr.out (.immediate 9223372036854775808)).wf Config.default = false := by decide
theorem test_wf_refuses_parameter_below : (Instr.jt (.position 0) (.relative (-9223372036854775809))).wf Config.default = false := by
  decide
theorem test_wf_refuses_write_parameter :
    (Instr.eq (.position 0) (.position 0) (.position 9223372036854775808)).wf Config.default = false := by decide
theorem test_wf_accepts : (Instr.eq (.relative cmin) (.immediate cmax) (.relative 0)).wf Config.default = true := by decide

/-! ### Decoding, one word of each opcode written out from R80 and R63, with the encoder on the same cells -/

theorem test_decode_add : decodeCells [21001, 7, -3, 9] = .ok (.add (.position 7) (.immediate (-3)) (.relative 9)) ∧ encode (.add (.position 7) (.immediate (-3)) (.relative 9)) = [21001, 7, -3, 9] := by decide
theorem test_decode_mul : decodeCells [1002, 4, 3, 4] = .ok (.mul (.position 4) (.immediate 3) (.position 4)) ∧ encode (.mul (.position 4) (.immediate 3) (.position 4)) = [1002, 4, 3, 4] := by decide
theorem test_decode_in : decodeCells [203, -1] = .ok (.inp (.relative (-1))) ∧ encode (.inp (.relative (-1))) = [203, -1] := by decide
theorem test_decode_out : decodeCells [104, -7] = .ok (.out (.immediate (-7))) ∧ encode (.out (.immediate (-7))) = [104, -7] := by decide
theorem test_decode_jt : decodeCells [1105, 1, 7] = .ok (.jt (.immediate 1) (.immediate 7)) ∧ encode (.jt (.immediate 1) (.immediate 7)) = [1105, 1, 7] := by decide
theorem test_decode_jf : decodeCells [1006, 101, 0] = .ok (.jf (.position 101) (.immediate 0)) ∧ encode (.jf (.position 101) (.immediate 0)) = [1006, 101, 0] := by decide
theorem test_decode_lt : decodeCells [1107, -1, 0, 5] = .ok (.lt (.immediate (-1)) (.immediate 0) (.position 5)) ∧ encode (.lt (.immediate (-1)) (.immediate 0) (.position 5)) = [1107, -1, 0, 5] := by decide
theorem test_decode_eq : decodeCells [1008, 100, 16, 101] = .ok (.eq (.position 100) (.immediate 16) (.position 101)) ∧ encode (.eq (.position 100) (.immediate 16) (.position 101)) = [1008, 100, 16, 101] := by decide
theorem test_decode_arb : decodeCells [209, -2] = .ok (.arb (.relative (-2))) ∧ encode (.arb (.relative (-2))) = [209, -2] := by decide
theorem test_decode_hlt : decodeCells [99] = .ok (.hlt) ∧ encode (.hlt) = [99] := by decide

/-- R79: `JMP t` is encoded `1105, 1, t`. -/
theorem test_encode_jmp : encode (Instr.jmp 6) = [1105, 1, 6] := by decide

/-- D-5, D-6, D-8 to D-14. -/
theorem test_decode_rejects :
    decode 11101 0 0 0 = .error .immediateWrite ∧ decode 103 0 0 0 = .error .immediateWrite ∧
    decode 301 0 0 0 = .error .illegalMode ∧ decode 1104 0 0 0 = .error .illegalMode ∧
    decode 20005 0 0 0 = .error .illegalMode ∧ decode 10099 0 0 0 = .error .illegalMode ∧
    decode 122201 0 0 0 = .error .illegalMode ∧ decode 98 0 0 0 = .error .illegalOpcode ∧
    decode 100 0 0 0 = .error .illegalOpcode ∧ decode (-1) 0 0 0 = .error .illegalOpcode := by decide

/-- R205's example: the two illegal digits of 11199 are ILLEGAL_MODE; 11301 has an illegal second digit and Immediate on the
write slot, and ILLEGAL_MODE comes first. -/
theorem test_decode_priority :
    decode 11199 0 0 0 = .error .illegalMode ∧ decode 11301 0 0 0 = .error .illegalMode := by decide

/-- A table word's first cell is its low 64 bits, its second the next 64 (log 5). -/
theorem test_table_word :
    decodeTableWord 16 22208 = some (.eq (.relative 0) (.relative 0) (.relative 0)) ∧
    decodeTableWord 128 (104 + (2 ^ 64 - 7) * 2 ^ 64) = some (.out (.immediate (-7))) ∧ decodeTableWord 8 98 = none := by decide

/-- R78's example, and a negative Relative operand of P1 and P2's kind. -/
theorem test_assembly_text :
    (Instr.mul (.position 4) (.immediate 3) (.position 4)).text = "MUL [4], #3, [4]" ∧
    (Instr.out (.relative (-1))).text = "OUT [rb-1]" := by decide

/-- P1 of 95_test_vectors.md, assembled. -/
theorem test_assemble :
    assemble [.instr (.out (.position 10)), .instr (.add (.position 10) (.immediate (-1)) (.position 10)),
      .instr (.jt (.position 10) (.immediate 0)), .instr .hlt, .cells [3]] =
      [4, 10, 1001, 10, -1, 10, 1005, 10, 0, 99, 3] := by decide

/-! ### Codes (R25, R27) -/

theorem test_codes :
    [Status.runnable, .waitingForInput, .halted, .error].map Status.code = [0, 1, 2, 3] ∧
    [Cause.none, .runaway, .illegalOpcode, .illegalMode, .immediateWrite, .badAddress, .badJumpTarget, .overflow,
      .memoryExhausted].map Cause.code = [0, 1, 2, 3, 4, 5, 6, 7, 8] := by decide

/-! ### Memory -/

/-- Writing 0 removes the entry, so equal memories are equal lists. -/
theorem test_memory_canonical :
    Memory.write (Memory.write (Memory.write [] 5 9) 2 (-1)) 5 0 = [(2, -1)] ∧
    (Memory.write (Memory.write [] 5 9) 2 (-1)).wf := by decide

/-- M-5: a write far beyond the extent extends it and the cells between read 0. -/
theorem test_write_beyond_extent :
    (after (prog [1101, 2, 3, 1000, 99])).ext = 1001 ∧ memRead (after (prog [1101, 2, 3, 1000, 99])) 1000 = 5 ∧
    memRead (after (prog [1101, 2, 3, 1000, 99])) 999 = 0 := by decide

/-- M-7, M-8: the capacity and its edge. -/
theorem test_capacity :
    (after (progSmall [1101, 1, 1, 16, 99])).cause = .memoryExhausted ∧
    (after (progSmall [1101, 1, 1, 16, 99])).ext = 5 ∧
    memRead (after (progSmall [1101, 1, 1, 15, 99])) 15 = 2 := by decide

/-! ### One step of each instruction -/

/-- A-14: the same cell three times. -/
theorem test_add_same_cell : memRead (after (prog [1, 0, 0, 0, 99])) 0 = 2 ∧ (after (prog [1, 0, 0, 0, 99])).ip = 4 := by decide
/-- A-3, A-4, A-6: overflow under Fault and under Wrap, both ways. -/
theorem test_add_overflow :
    after (prog [1101, cmax, 1, 5, 99, 0]) =
      { prog [1101, cmax, 1, 5, 99, 0] with status := .error, cause := .overflow } ∧
    memRead (after (progWrap [1101, cmax, 1, 5, 99, 0])) 5 = cmin ∧
    memRead (after (progWrap [1101, cmin, -1, 5, 99, 0])) 5 = cmax := by decide
/-- S3. -/
theorem test_mul_position : memRead (after (prog [1002, 4, 3, 4, 33])) 4 = 99 := by decide
/-- A-11 to A-13. -/
theorem test_mul_edges :
    memRead (after (prog [1102, 3037000499, 3037000499, 5, 99, 0])) 5 = 9223372030926249001 ∧
    (after (prog [1102, 3037000500, 3037000500, 5, 99, 0])).cause = .overflow ∧
    memRead (after (progWrap [1102, 3037000500, 3037000500, 5, 99, 0])) 5 = -9223372036709301616 := by decide
/-- I-2. -/
theorem test_in_takes_front :
    memRead (after (prog [3, 0, 99] [-42, 6])) 0 = -42 ∧ (after (prog [3, 0, 99] [-42, 6])).inQ = [6] ∧
    (after (prog [3, 0, 99] [-42, 6])).ip = 2 := by decide
/-- I-1, I-3, I-4: an empty queue suspends, but an illegal target errs first. -/
theorem test_in_suspends :
    after (prog [3, 0, 99]) = { prog [3, 0, 99] with status := .waitingForInput } ∧
    (after (prog [103, 5, 99])).cause = .immediateWrite ∧ (after (prog [3, -1, 99])).cause = .badAddress := by decide
/-- I-6, I-7. -/
theorem test_out_values : (after (prog [104, -7, 99])).outQ = [-7] ∧ (after (prog [4, 3, 99, 42])).outQ = [42] := by decide
/-- I-8: a cell beyond the extent reads 0. -/
theorem test_out_beyond_extent : (after (prog [4, 50, 99])).outQ = [0] ∧ (after (prog [4, 50, 99])).ip = 2 := by decide
/-- J-1, J-2. -/
theorem test_jt_taken_on_negative : (after (prog [1105, -1, 7, 99])).ip = 7 ∧ (after (prog [1105, 0, 7, 99])).ip = 3 := by decide
/-- J-5, J-6: the target is checked only when the jump is taken. -/
theorem test_jt_negative_target :
    (after (prog [1105, 1, -3, 99])).cause = .badJumpTarget ∧ (after (prog [1105, 1, -3, 99])).ip = 0 ∧
    (after (prog [1105, 0, -3, 99])).ip = 3 := by decide
/-- J-3, J-4. -/
theorem test_jf : (after (prog [1106, 0, 9, 99])).ip = 9 ∧ (after (prog [1106, 5, 9, 99])).ip = 3 := by decide
/-- C-1 to C-4. -/
theorem test_lt_signed :
    memRead (after (prog [1107, -1, 0, 5, 99, 7])) 5 = 1 ∧ memRead (after (prog [1107, 5, 5, 5, 99, 7])) 5 = 0 ∧
    memRead (after (prog [1107, cmin, cmax, 5, 99, 7])) 5 = 1 ∧ memRead (after (prog [1107, cmax, cmin, 5, 99, 7])) 5 = 0 := by
  decide
/-- C-5, C-6. -/
theorem test_eq :
    memRead (after (prog [1108, 7, 7, 5, 99, 0])) 5 = 1 ∧ memRead (after (prog [1108, -1, cmax, 5, 99, 4])) 5 = 0 := by decide
/-- Y-3, second step: a Relative operand is read with the old rb, 4 + cell (4 − 2) = 4 + 209. -/
theorem test_arb_relative :
    (after { prog [109, 4, 209, -2, 99] with rb := 4, ip := 2 }).rb = 213 ∧
    (after { prog [109, 4, 209, -2, 99] with rb := 4, ip := 2 }).ip = 4 := by decide
/-- Y-4, Y-5, second step. -/
theorem test_arb_overflow :
    (after { prog [109, cmax, 109, 1, 99] with rb := cmax, ip := 2 }).cause = .overflow ∧
    (after { progWrap [109, cmax, 109, 1, 99] with rb := cmax, ip := 2 }).rb = cmin := by decide
/-- Y-6: the status; ip after Halt is not claimed (U10). -/
theorem test_hlt : (after (prog [99])).status = .halted ∧ (after (prog [99])).cause = .none := by decide

/-- M-3, M-4: a Relative sum below 0 or above AMAX. -/
theorem test_relative_out_of_range :
    (after { prog [109, -5, 201, 0, 0, 0, 99] with rb := -5, ip := 2 }).cause = .badAddress ∧
    (after { prog [109, cmax, 204, 1, 99] with rb := cmax, ip := 2 }).cause = .badAddress := by decide

/-- R-3, R-1: fetch at the extent is RUNAWAY. -/
theorem test_runaway : (after (prog [])).cause = .runaway ∧ (after { prog [1101, 1, 1, 3] with ip := 4 }).cause = .runaway := by
  decide

/-- Q1, first step: under P_TIGHT_LOOP a write to the cell at ip keeps ip there. -/
theorem test_tight_loop :
    (after (State.load { Config.default with tightLoop := true } [1, 0, 0, 0, 99])).ip = 0 ∧
    (after (State.load { Config.default with tightLoop := true } [1002, 4, 3, 4, 33])).ip = 4 := by decide

/-- The word placed where reset fetches is the instruction the step runs. -/
theorem test_withFetchWord :
    exec (.out (.position 0)) (State.reset.withFetchWord 8 4) = step (State.reset.withFetchWord 8 4) ∧
    (after (State.reset.withFetchWord 8 4)).outQ = [4] ∧ (after (State.reset.withFetchWord 8 99)).status = .halted :=
  ⟨rfl, by decide, by decide⟩

/-! ### The host interface -/

/-- R-4: RUN of `[99]` returns Halted with `running` at 0 again. -/
theorem test_run_halts :
    transact (.run 1) (prog [99]) = .next ({ prog [99] with status := .halted, ip := 1 }, .status .halted) := rfl
/-- R213: an endless jump is not finished, and the status stays Runnable. -/
theorem test_run_not_finished :
    transact (.run 2) (prog [1106, 0, 0]) = .next ({ prog [1106, 0, 0] with running := true }, .notFinished) := rfl
/-- I-10: RUN with nothing pushed. -/
theorem test_run_waits :
    transact (.run 1) (prog [3, 0, 99]) = .next ({ prog [3, 0, 99] with status := .waitingForInput }, .status .waitingForInput) :=
  rfl
theorem test_busy : transact .outPop { prog [99] with running := true } = .refused .hostBusy := rfl

/-! ### Witnesses: states and operands that meet the hypotheses of the obligations -/

theorem witness_WhatDecodesToAnInstructionIsItsEncoding :
    decode 1002 4 3 4 = .ok (.mul (.position 4) (.immediate 3) (.position 4)) := by decide

theorem witness_IllegalOpcodeExactlyOnNegativeOrUnlistedWords :
    ((-1 : Cell) < 0 ∧ AtWord (prog [-1]) (-1)) ∧
    ((10 : Cell).toNat % 100 ∉ opcodes ∧ AtWord (prog [10]) 10) ∧ ((98 : Cell).toNat % 100 ∉ opcodes ∧ AtWord (prog [98]) 98) :=
  ⟨⟨by decide, rfl, by decide, by decide⟩, ⟨by decide, rfl, by decide, by decide⟩, by decide, rfl, by decide, by decide⟩

/-- A used slot with digit 3, an unused slot with digit 1, a digit above the third mode. -/
theorem witness_IllegalModeExactlyOnBadModeDigits :
    (301 % 100 ∈ opcodes ∧ HasIllegalMode 301 ∧ AtWord (prog [301]) 301) ∧
    (1104 % 100 ∈ opcodes ∧ HasIllegalMode 1104 ∧ AtWord (prog [1104]) 1104) ∧
    (100099 % 100 ∈ opcodes ∧ HasIllegalMode 100099 ∧ AtWord (prog [100099]) 100099) := by
  refine ⟨⟨by decide, .inl ⟨1, by decide, ?_⟩, rfl, by decide, by decide⟩,
    ⟨by decide, .inl ⟨2, by decide, ?_⟩, rfl, by decide, by decide⟩, by decide, .inr (by decide), rfl, by decide, by decide⟩ <;>
    (unfold BadModeDigit; decide)

theorem witness_ImmediateModeOnAWriteSlotIsRejected :
    (11101 % 100 ∈ opcodes ∧ ¬ HasIllegalMode 11101 ∧ (∃ k, writeSlotOf (11101 % 100) = some k ∧ digit 11101 (k + 1) = 1) ∧
      AtWord (prog [11101]) 11101) ∧
    (103 % 100 ∈ opcodes ∧ ¬ HasIllegalMode 103 ∧ (∃ k, writeSlotOf (103 % 100) = some k ∧ digit 103 (k + 1) = 1) ∧
      AtWord (prog [103]) 103) := by
  refine ⟨⟨by decide, ?_, ⟨3, by decide, by decide⟩, rfl, by decide, by decide⟩,
    by decide, ?_, ⟨1, by decide, by decide⟩, rfl, by decide, by decide⟩ <;>
    (unfold HasIllegalMode BadModeDigit; decide)

theorem witness_StepRunsTheInstructionDecodedAtIp :
    ((prog [1002, 4, 3, 4]).status = .runnable ∧ (prog [1002, 4, 3, 4]).ip < (prog [1002, 4, 3, 4]).ext ∧
      decodeAt (prog [1002, 4, 3, 4]) = .ok (.mul (.position 4) (.immediate 3) (.position 4))) ∧
    decodeAt (prog [0]) = .error .illegalOpcode ∧ decodeAt (prog [301]) = .error .illegalMode ∧
    decodeAt (prog [103]) = .error .immediateWrite := by decide

theorem witness_StepBeyondTheExtentRaisesRunaway :
    (prog []).status = .runnable ∧ (prog []).ext ≤ (prog []).ip := by decide

theorem witness_WithNoStepEnabledOnlyRunningIsCleared :
    ({ prog [99] with status := .halted, running := true } : State).status ≠ .runnable := by decide

/-- One event for each row of R200. -/
theorem witness_StatusChangesOnlyAsTheTransitionTableSays :
    (step (prog [3, 0]) = .next { prog [3, 0] with status := .waitingForInput } ∧ Runs (prog [3, 0]) (.inp (.position 0)) ∧
      resolveWrite (prog [3, 0]) (.position 0) = .ok 0) ∧
    Runs (prog [99]) .hlt ∧
    (after (prog [])).status = .error ∧
    step { prog [99] with status := .halted } = .next { prog [99] with status := .halted } ∧
    (∃ u r, transact (.run 1) { prog [3, 0] with status := .waitingForInput } = .next (u, r)) ∧
    (∃ u r, transact (.run 1) { prog [99] with status := .error } = .next (u, r)) ∧
    (∃ u r, transact (.load [99]) (prog []) = .next (u, r)) ∧
    ∃ u r, transact .readStatus (prog []) = .next (u, r) :=
  ⟨⟨rfl, ⟨rfl, by decide, by decide⟩, by decide⟩, ⟨rfl, by decide, by decide⟩, by decide, rfl,
    ⟨_, _, rfl⟩, ⟨_, _, rfl⟩, ⟨_, _, rfl⟩, _, _, rfl⟩

theorem witness_OnlyInputWithAnEmptyQueueSuspends :
    step (prog [3, 0]) = .next { prog [3, 0] with status := .waitingForInput } ∧ (prog [3, 0]).status ≠ .waitingForInput :=
  ⟨rfl, by decide⟩

theorem witness_ErrorsArePrecise :
    step (prog [103]) = .next { prog [103] with status := .error, cause := .immediateWrite } ∧ (prog [103]).status ≠ .error :=
  ⟨rfl, by decide⟩

/-- One error of each kind that an instruction itself can raise. -/
theorem witness_InstructionsRaiseOnlyTheirOwnCauses :
    exec (.add (.immediate cmax) (.immediate 1) (.position 0)) (prog [99]) =
      .next { prog [99] with status := .error, cause := .overflow } ∧
    exec (.inp (.position 16)) (progSmall [99]) = .next { progSmall [99] with status := .error, cause := .memoryExhausted } ∧
    exec (.out (.position (-1))) (prog [99]) = .next { prog [99] with status := .error, cause := .badAddress } ∧
    exec (.jf (.immediate 0) (.immediate (-1))) (prog [99]) =
      .next { prog [99] with status := .error, cause := .badJumpTarget } := ⟨rfl, rfl, rfl, rfl⟩


theorem witness_AddFollowsItsRule :
    (2 < 3 ∧ AtWord (prog [301]) (wordOf 0 0 0 3 1)) ∧ AtWord (prog [100001]) (wordOf 1 0 0 0 1) ∧
    AtWord (prog [10001]) (wordOf 0 1 0 0 1) ∧
    (AtWord (prog [21201, 5, 6, 7]) (wordOf 0 2 1 2 1) ∧ ReadForm 2 5 (.relative 5) ∧ ReadForm 1 6 (.immediate 6) ∧
      WriteForm 2 7 (.relative 7)) ∧
    BadRead (prog []) (.position (-1)) ∧
    (ReadsAs (prog [99]) (.position 0) 99 ∧ BadRead (prog [99]) (.relative (cmax + 1))) ∧
    (ReadsAs (prog []) (.position cmax) 0 ∧ ReadsAs (prog []) (.immediate 5) 5 ∧
      ¬ (prog []).cfg.InAddr (writeTarget (prog []) (.position (-1)))) ∧
    ((progSmall []).cfg.InAddr (writeTarget (progSmall []) (.position 16)) ∧
      (progSmall []).cfg.memLimit ≤ (writeTarget (progSmall []) (.position 16)).toNat) ∧
    ((progSmall []).MemoryOk ∧ Resolved (progSmall []) (.immediate (cmax)) (.immediate (0)) (.position 15) (cmax) (0) 15 ∧ (progSmall []).cfg.InCell (cmax + 0)) ∧
    ((progWrap []).MemoryOk ∧ Resolved (progWrap []) (.immediate (cmax)) (.immediate (1)) (.position 15) (cmax) (1) 15 ∧ ¬ (progWrap []).cfg.InCell (cmax + (1)) ∧
      (progWrap []).cfg.overflow = .wrap) ∧
    ((prog []).MemoryOk ∧ Resolved (prog []) (.immediate (cmax)) (.immediate (1)) (.position 15) (cmax) (1) 15 ∧ ¬ (prog []).cfg.InCell (cmax + (1)) ∧
      (prog []).cfg.overflow = .fault) :=
  ⟨⟨by decide, rfl, by decide, by decide⟩, ⟨rfl, by decide, by decide⟩, ⟨rfl, by decide, by decide⟩,
    ⟨⟨rfl, by decide, by decide⟩, .inr (.inr ⟨rfl, rfl⟩), .inr (.inl ⟨rfl, rfl⟩), .inr ⟨rfl, rfl⟩⟩,
    (by decide : ¬ Config.default.InAddr (-1)), ⟨⟨by decide, by decide⟩, (by decide : ¬ Config.default.InAddr (0 + (cmax + 1)))⟩,
    ⟨⟨by decide, by decide⟩, rfl, by decide⟩, by decide, ⟨by decide, ⟨rfl, rfl, by decide, by decide, by decide⟩, by decide⟩, ⟨by decide, ⟨rfl, rfl, by decide, by decide, by decide⟩, by decide, rfl⟩,
    by decide, ⟨rfl, rfl, by decide, by decide, by decide⟩, by decide, rfl⟩

theorem witness_MulFollowsItsRule :
    (2 < 3 ∧ AtWord (prog [302]) (wordOf 0 0 0 3 2)) ∧ AtWord (prog [100002]) (wordOf 1 0 0 0 2) ∧
    AtWord (prog [10002]) (wordOf 0 1 0 0 2) ∧
    (AtWord (prog [21202, 5, 6, 7]) (wordOf 0 2 1 2 2) ∧ ReadForm 2 5 (.relative 5) ∧ ReadForm 1 6 (.immediate 6) ∧
      WriteForm 2 7 (.relative 7)) ∧
    BadRead (prog []) (.position (-1)) ∧
    (ReadsAs (prog [99]) (.position 0) 99 ∧ BadRead (prog [99]) (.relative (cmax + 1))) ∧
    (ReadsAs (prog []) (.position cmax) 0 ∧ ReadsAs (prog []) (.immediate 5) 5 ∧
      ¬ (prog []).cfg.InAddr (writeTarget (prog []) (.position (-1)))) ∧
    ((progSmall []).cfg.InAddr (writeTarget (progSmall []) (.position 16)) ∧
      (progSmall []).cfg.memLimit ≤ (writeTarget (progSmall []) (.position 16)).toNat) ∧
    ((progSmall []).MemoryOk ∧ Resolved (progSmall []) (.immediate (cmax)) (.immediate (1)) (.position 15) (cmax) (1) 15 ∧ (progSmall []).cfg.InCell (cmax * 1)) ∧
    ((progWrap []).MemoryOk ∧ Resolved (progWrap []) (.immediate (cmin)) (.immediate (-1)) (.position 15) (cmin) (-1) 15 ∧ ¬ (progWrap []).cfg.InCell (cmin * (-1)) ∧
      (progWrap []).cfg.overflow = .wrap) ∧
    ((prog []).MemoryOk ∧ Resolved (prog []) (.immediate (cmin)) (.immediate (-1)) (.position 15) (cmin) (-1) 15 ∧ ¬ (prog []).cfg.InCell (cmin * (-1)) ∧
      (prog []).cfg.overflow = .fault) :=
  ⟨⟨by decide, rfl, by decide, by decide⟩, ⟨rfl, by decide, by decide⟩, ⟨rfl, by decide, by decide⟩,
    ⟨⟨rfl, by decide, by decide⟩, .inr (.inr ⟨rfl, rfl⟩), .inr (.inl ⟨rfl, rfl⟩), .inr ⟨rfl, rfl⟩⟩,
    (by decide : ¬ Config.default.InAddr (-1)), ⟨⟨by decide, by decide⟩, (by decide : ¬ Config.default.InAddr (0 + (cmax + 1)))⟩,
    ⟨⟨by decide, by decide⟩, rfl, by decide⟩, by decide, ⟨by decide, ⟨rfl, rfl, by decide, by decide, by decide⟩, by decide⟩, ⟨by decide, ⟨rfl, rfl, by decide, by decide, by decide⟩, by decide, rfl⟩,
    by decide, ⟨rfl, rfl, by decide, by decide, by decide⟩, by decide, rfl⟩

theorem witness_LessThanFollowsItsRule :
    (2 < 3 ∧ AtWord (prog [307]) (wordOf 0 0 0 3 7)) ∧ AtWord (prog [100007]) (wordOf 1 0 0 0 7) ∧
    AtWord (prog [10007]) (wordOf 0 1 0 0 7) ∧
    (AtWord (prog [21207, 5, 6, 7]) (wordOf 0 2 1 2 7) ∧ ReadForm 2 5 (.relative 5) ∧ ReadForm 1 6 (.immediate 6) ∧
      WriteForm 2 7 (.relative 7)) ∧
    BadRead (prog []) (.position (-1)) ∧
    (ReadsAs (prog [99]) (.position 0) 99 ∧ BadRead (prog [99]) (.relative (cmax + 1))) ∧
    (ReadsAs (prog []) (.position cmax) 0 ∧ ReadsAs (prog []) (.immediate 5) 5 ∧
      ¬ (prog []).cfg.InAddr (writeTarget (prog []) (.position (-1)))) ∧
    ((progSmall []).cfg.InAddr (writeTarget (progSmall []) (.position 16)) ∧
      (progSmall []).cfg.memLimit ≤ (writeTarget (progSmall []) (.position 16)).toNat) ∧
    ((progSmall []).MemoryOk ∧ Resolved (progSmall []) (.immediate (cmin)) (.immediate (cmax)) (.position 15) (cmin) (cmax) 15 ∧ cmin < cmax) ∧
    ((prog []).MemoryOk ∧ Resolved (prog []) (.immediate (5)) (.immediate (5)) (.position 15) (5) (5) 15 ∧ ¬ (5 : Int) < 5) :=
  ⟨⟨by decide, rfl, by decide, by decide⟩, ⟨rfl, by decide, by decide⟩, ⟨rfl, by decide, by decide⟩,
    ⟨⟨rfl, by decide, by decide⟩, .inr (.inr ⟨rfl, rfl⟩), .inr (.inl ⟨rfl, rfl⟩), .inr ⟨rfl, rfl⟩⟩,
    (by decide : ¬ Config.default.InAddr (-1)), ⟨⟨by decide, by decide⟩, (by decide : ¬ Config.default.InAddr (0 + (cmax + 1)))⟩,
    ⟨⟨by decide, by decide⟩, rfl, by decide⟩, by decide, ⟨by decide, ⟨rfl, rfl, by decide, by decide, by decide⟩, by decide⟩, by decide, ⟨rfl, rfl, by decide, by decide, by decide⟩, by decide⟩

theorem witness_EqualsFollowsItsRule :
    (2 < 3 ∧ AtWord (prog [308]) (wordOf 0 0 0 3 8)) ∧ AtWord (prog [100008]) (wordOf 1 0 0 0 8) ∧
    AtWord (prog [10008]) (wordOf 0 1 0 0 8) ∧
    (AtWord (prog [21208, 5, 6, 7]) (wordOf 0 2 1 2 8) ∧ ReadForm 2 5 (.relative 5) ∧ ReadForm 1 6 (.immediate 6) ∧
      WriteForm 2 7 (.relative 7)) ∧
    BadRead (prog []) (.position (-1)) ∧
    (ReadsAs (prog [99]) (.position 0) 99 ∧ BadRead (prog [99]) (.relative (cmax + 1))) ∧
    (ReadsAs (prog []) (.position cmax) 0 ∧ ReadsAs (prog []) (.immediate 5) 5 ∧
      ¬ (prog []).cfg.InAddr (writeTarget (prog []) (.position (-1)))) ∧
    ((progSmall []).cfg.InAddr (writeTarget (progSmall []) (.position 16)) ∧
      (progSmall []).cfg.memLimit ≤ (writeTarget (progSmall []) (.position 16)).toNat) ∧
    ((progSmall []).MemoryOk ∧ Resolved (progSmall []) (.immediate (7)) (.immediate (7)) (.position 15) (7) (7) 15 ∧ (7 : Int) = 7) ∧
    ((prog []).MemoryOk ∧ Resolved (prog []) (.immediate (-1)) (.immediate (cmax)) (.position 15) (-1) (cmax) 15 ∧ ¬ (-1 : Int) = cmax) :=
  ⟨⟨by decide, rfl, by decide, by decide⟩, ⟨rfl, by decide, by decide⟩, ⟨rfl, by decide, by decide⟩,
    ⟨⟨rfl, by decide, by decide⟩, .inr (.inr ⟨rfl, rfl⟩), .inr (.inl ⟨rfl, rfl⟩), .inr ⟨rfl, rfl⟩⟩,
    (by decide : ¬ Config.default.InAddr (-1)), ⟨⟨by decide, by decide⟩, (by decide : ¬ Config.default.InAddr (0 + (cmax + 1)))⟩,
    ⟨⟨by decide, by decide⟩, rfl, by decide⟩, by decide, ⟨by decide, ⟨rfl, rfl, by decide, by decide, by decide⟩, by decide⟩, by decide, ⟨rfl, rfl, by decide, by decide, by decide⟩, by decide⟩

theorem witness_JumpIfTrueFollowsItsRule :
    AtWord (prog [305]) (wordOf 0 0 0 3 5) ∧ AtWord (prog [20005]) (wordOf 0 2 0 0 5) ∧
    (AtWord (prog [2105, 5, 6]) (wordOf 0 0 2 1 5) ∧ ReadForm 1 5 (.immediate 5) ∧ ReadForm 2 6 (.relative 6)) ∧
    BadRead (prog []) (.position (-1)) ∧ (ReadsAs (prog [99]) (.position 0) 99 ∧ BadRead (prog [99]) (.relative (-1))) ∧
    (ReadsAs (prog []) (.immediate (-1)) (-1) ∧ ReadsAs (prog []) (.position 3) 0 ∧ (-1 : Int) ≠ 0 ∧ (0 : Int) ≤ 0) ∧
    (ReadsAs (prog []) (.immediate (-1)) (-1) ∧ (-1 : Int) < 0) ∧ (ReadsAs (prog []) (.immediate 0) 0 ∧ ¬ (0 : Int) ≠ 0) :=
  ⟨⟨rfl, by decide, by decide⟩, ⟨rfl, by decide, by decide⟩,
    ⟨⟨rfl, by decide, by decide⟩, .inr (.inl ⟨rfl, rfl⟩), .inr (.inr ⟨rfl, rfl⟩)⟩,
    (by decide : ¬ Config.default.InAddr (-1)), ⟨⟨by decide, by decide⟩, (by decide : ¬ Config.default.InAddr (0 + -1))⟩,
    ⟨rfl, ⟨by decide, by decide⟩, by decide, by decide⟩, ⟨rfl, by decide⟩, rfl, by decide⟩

theorem witness_JumpIfFalseFollowsItsRule :
    AtWord (prog [306]) (wordOf 0 0 0 3 6) ∧ AtWord (prog [20006]) (wordOf 0 2 0 0 6) ∧
    (AtWord (prog [2106, 5, 6]) (wordOf 0 0 2 1 6) ∧ ReadForm 1 5 (.immediate 5) ∧ ReadForm 2 6 (.relative 6)) ∧
    BadRead (prog []) (.position (-1)) ∧ (ReadsAs (prog [99]) (.position 0) 99 ∧ BadRead (prog [99]) (.relative (-1))) ∧
    (ReadsAs (prog []) (.immediate 0) 0 ∧ ReadsAs (prog []) (.position 3) 0 ∧ (0 : Int) = 0 ∧ (0 : Int) ≤ 0) ∧
    (ReadsAs (prog []) (.immediate (-1)) (-1) ∧ (-1 : Int) < 0) ∧ (ReadsAs (prog []) (.immediate (-1)) (-1) ∧ ¬ (-1 : Int) = 0) :=
  ⟨⟨rfl, by decide, by decide⟩, ⟨rfl, by decide, by decide⟩,
    ⟨⟨rfl, by decide, by decide⟩, .inr (.inl ⟨rfl, rfl⟩), .inr (.inr ⟨rfl, rfl⟩)⟩,
    (by decide : ¬ Config.default.InAddr (-1)), ⟨⟨by decide, by decide⟩, (by decide : ¬ Config.default.InAddr (0 + -1))⟩,
    ⟨rfl, ⟨by decide, by decide⟩, by decide, by decide⟩, ⟨rfl, by decide⟩, rfl, by decide⟩

theorem witness_InputFollowsItsRule :
    AtWord (prog [1003]) (wordOf 0 0 1 0 3) ∧ AtWord (prog [103]) (wordOf 0 0 0 1 3) ∧
    (AtWord (prog [203, 4]) (wordOf 0 0 0 2 3) ∧ WriteForm 2 4 (.relative 4)) ∧
    ¬ (prog []).cfg.InAddr (writeTarget (prog []) (.relative (-1))) ∧
    ((progSmall []).cfg.InAddr (writeTarget (progSmall []) (.position 16)) ∧
      (progSmall []).cfg.memLimit ≤ (writeTarget (progSmall []) (.position 16)).toNat) ∧
    ((progSmall []).cfg.InAddr (writeTarget (progSmall []) (.position 15)) ∧
      (writeTarget (progSmall []) (.position 15)).toNat < (progSmall []).cfg.memLimit ∧ (progSmall []).inQ = []) ∧
    ((prog [3, 0] [-42, 6]).MemoryOk ∧ (prog [3, 0] [-42, 6]).inQ = -42 :: [6]) :=
  ⟨⟨rfl, by decide, by decide⟩, ⟨rfl, by decide, by decide⟩, ⟨⟨rfl, by decide, by decide⟩, .inr ⟨rfl, rfl⟩⟩,
    by decide, by decide, by decide, by decide, rfl⟩

theorem witness_OutputFollowsItsRule :
    AtWord (prog [304]) (wordOf 0 0 0 3 4) ∧ (AtWord (prog [204, -1]) (wordOf 0 0 0 2 4) ∧ ReadForm 2 (-1) (.relative (-1))) ∧
    BadRead (prog []) (.relative (-1)) ∧ ReadsAs (prog [4, 3, 99, 42]) (.position 3) 42 :=
  ⟨⟨rfl, by decide, by decide⟩, ⟨⟨rfl, by decide, by decide⟩, .inr (.inr ⟨rfl, rfl⟩)⟩,
    (by decide : ¬ Config.default.InAddr (0 + -1)), by decide, by decide⟩

theorem witness_AdjustRelativeBaseFollowsItsRule :
    AtWord (prog [100009]) (wordOf 1 0 0 0 9) ∧ (AtWord (prog [9, 4]) (wordOf 0 0 0 0 9) ∧ ReadForm 0 4 (.position 4)) ∧
    BadRead (prog []) (.position (-1)) ∧
    (ReadsAs (prog []) (.immediate cmin) cmin ∧ (prog []).cfg.InCell ((prog []).rb + cmin)) ∧
    (ReadsAs { progWrap [] with rb := cmax } (.immediate 1) 1 ∧ ¬ (progWrap []).cfg.InCell (cmax + 1) ∧
      (progWrap []).cfg.overflow = .wrap) ∧
    (ReadsAs { prog [] with rb := cmin } (.immediate (-1)) (-1) ∧ ¬ (prog []).cfg.InCell (cmin + -1) ∧
      (prog []).cfg.overflow = .fault) :=
  ⟨⟨rfl, by decide, by decide⟩, ⟨⟨rfl, by decide, by decide⟩, .inl ⟨rfl, rfl⟩⟩,
    (by decide : ¬ Config.default.InAddr (-1)), ⟨rfl, by decide⟩, ⟨rfl, by decide, rfl⟩, rfl, by decide, rfl⟩

theorem witness_HaltSetsHaltedAndKeepsAllButIp :
    AtWord (prog [199]) (wordOf 0 0 0 1 99) ∧ AtWord (prog [99]) (wordOf 0 0 0 0 99) :=
  ⟨⟨rfl, by decide, by decide⟩, rfl, by decide, by decide⟩

theorem witness_InstructionsChangeNoCellButTheirDestination :
    (prog [1, 0, 0, 0, 99]).MemoryOk ∧
    exec (.add (.position 0) (.position 0) (.position 0)) (prog [1, 0, 0, 0, 99]) = .next (after (prog [1, 0, 0, 0, 99])) ∧
    (Instr.add (.position 0) (.position 0) (.position 0)).writeSlot = some (.position 0) ∧
    writeTarget (prog [1, 0, 0, 0, 99]) (.position 0) = ((0 : Nat) : Int) ∧
    (exec (.out (.immediate 1)) (prog [104, 1]) = .next (after (prog [104, 1])) ∧ (Instr.out (.immediate 1)).writeSlot = none) :=
  ⟨by decide, rfl, rfl, by decide, rfl, rfl⟩

/-- A step that changes rb, one that changes in_q, one that changes out_q and one that changes cause. -/
theorem witness_StepsChangeRegistersAndQueuesOnlyByTheirInstruction :
    (after (prog [109, 1])).rb ≠ (prog [109, 1]).rb ∧ (after (prog [3, 0] [8])).inQ ≠ (prog [3, 0] [8]).inQ ∧
    (after (prog [104, 1])).outQ ≠ (prog [104, 1]).outQ ∧ (after (prog [])).cause ≠ (prog []).cause := by decide

theorem witness_OnlyJumpsRedirectControl :
    Runs (prog [1, 0, 0, 0, 99]) (.add (.position 0) (.position 0) (.position 0)) ∧
    step (prog [1, 0, 0, 0, 99]) = .next (after (prog [1, 0, 0, 0, 99])) ∧ (after (prog [1, 0, 0, 0, 99])).status = .runnable :=
  ⟨⟨rfl, by decide, by decide⟩, rfl, by decide⟩

theorem witness_MemoryNeverShrinks :
    (step (prog [1, 0, 0, 0, 99]) = .next (after (prog [1, 0, 0, 0, 99])) ∧ (prog [1, 0, 0, 0, 99]).MemoryOk ∧
      memRead (after (prog [1, 0, 0, 0, 99])) 0 ≠ memRead (prog [1, 0, 0, 0, 99]) 0) ∧
    (∃ t r, transact (.run 2) (prog [1, 0, 0, 0, 99]) = .next (t, r)) ∧ ∃ t r, transact .outPop (prog [99]) = .next (t, r) :=
  ⟨⟨rfl, by decide, by decide⟩, ⟨_, _, rfl⟩, _, _, rfl⟩

theorem witness_LoadBuildsTheFreshState :
    (prog [99]).running = false ∧ [1, 0, 0, 0, 99].length ≤ (prog [99]).cfg.memLimit ∧
    (∀ x ∈ ([1, 0, 0, 0, 99] : List Cell), (prog [99]).cfg.InCell x) ∧ (prog [99]).cfg.Legal := by decide

theorem witness_EveryStepKeepsTheInvariant :
    (prog [1, 0, 0, 0, 99]).Inv ∧ step (prog [1, 0, 0, 0, 99]) = .next (after (prog [1, 0, 0, 0, 99])) := ⟨by decide, rfl⟩

theorem witness_EveryTransactionKeepsTheInvariant :
    (prog [3, 0, 99]).Inv ∧ ∃ t, transact (.inPush 5) (prog [3, 0, 99]) = .next (t, .nothing) := ⟨by decide, _, rfl⟩

theorem witness_DecodedInstructionsAreWellFormed :
    (prog [203, cmin]).Inv ∧ decodeAt (prog [203, cmin]) = .ok (.inp (.relative cmin)) := by decide

theorem witness_RunOnATerminalVmIsANoOp :
    (({ prog [99] with status := .halted, outQ := [7] } : State).running = false ∧
      ({ prog [99] with status := .halted, outQ := [7] } : State).Terminal ∧
      ({ prog [99] with status := .halted, outQ := [7] } : State).cfg.InAddr ((0 : Nat) : Int) ∧
      ({ prog [99] with status := .halted, outQ := [7] } : State).outQ = [7]) ∧
    ({ prog [99] with status := .error } : State).Terminal := by decide

theorem witness_NoTransactionWhileRunning : ({ prog [99] with running := true } : State).running = true := by decide

theorem witness_TransactionsDoWhatTheTableSays :
    (prog [99]).running = false ∧ (prog [99]).cfg.InCell cmin ∧ (prog [99]).outQ = [] ∧
    ({ prog [99] with outQ := [1, 2] } : State).outQ = [1, 2] ∧ (prog [99]).cfg.InAddr ((9223372036854775807 : Nat) : Int) := by decide

theorem witness_IllegalHostArgumentsAreRefused :
    (progSmall []).running = false ∧ (progSmall []).cfg.memLimit < (List.replicate 17 (0 : Cell)).length ∧
    ¬ (progSmall []).cfg.InCell (cmax + 1) ∧ ¬ (progSmall []).cfg.InAddr ((9223372036854775808 : Nat) : Int) := by decide

/-- RUN of `[99]`: one step leads to Halted; RUN of an endless jump: one step leads to Runnable. -/
theorem witness_RunStepsUntilTheStatusIsNotRunnable :
    ((prog [99]).running = false ∧ ¬ (prog [99]).Terminal ∧
      StepsTo 1 { prog [99] with status := .runnable, running := true } (after { prog [99] with running := true }) ∧
      (∀ j < 1, ∃ u, StepsTo j { prog [99] with status := .runnable, running := true } u ∧ u.status = .runnable) ∧
      (after { prog [99] with running := true }).status ≠ .runnable) ∧
    (StepsTo 1 { prog [1106, 0, 0] with status := .runnable, running := true }
      (after { prog [1106, 0, 0] with running := true }) ∧ (after { prog [1106, 0, 0] with running := true }).status = .runnable) ∧
    ({ prog [99] with status := .halted } : State).Terminal :=
  ⟨⟨rfl, by decide, ⟨_, rfl, rfl⟩, fun | 0, _ => ⟨_, rfl, rfl⟩, by decide⟩, ⟨⟨_, rfl, rfl⟩, by decide⟩, by decide⟩

theorem witness_TheEmptyProgramRunsAway : (prog [99]).running = false := rfl

theorem witness_ResumeExecutesTheSameInputAgain :
    (prog [3, 0]).status = .runnable ∧ step (prog [3, 0]) = .next (after (prog [3, 0])) ∧
    (after (prog [3, 0])).status = .waitingForInput := ⟨rfl, rfl, by decide⟩

theorem witness_OutputsAppearInProgramOrder :
    StepsTo 1 (prog [104, 5, 99]) (after (prog [104, 5, 99])) ∧ outputsAlong 1 (prog [104, 5, 99]) = [5] ∧
    ¬ (prog [104, 5, 99]).Terminal ∧ (∃ t r, transact (.run 2) (prog [104, 5, 99]) = .next (t, r)) ∧
    ({ prog [99] with status := .halted } : State).Terminal :=
  ⟨⟨_, rfl, rfl⟩, by decide, by decide, ⟨_, _, rfl⟩, by decide⟩

theorem witness_RelativeBaseAccumulatesTheAdjustments :
    StepsTo 1 (State.load Config.default [109, 4]) (after (State.load Config.default [109, 4])) ∧
    adjustmentsAlong 1 (State.load Config.default [109, 4]) = 4 ∧ Config.default.overflow = .fault :=
  ⟨⟨_, rfl, rfl⟩, by decide, rfl⟩

/-- Feeding one value, then running once, ends in a state: neither side of the equivalence is empty. -/
theorem witness_FeedingOneAtATimeEqualsFeedingAllAtOnce :
    ∃ t, FedOneAtATime [8] (prog [3, 0, 99]) t := ⟨_, _, _, rfl, ⟨2, _, rfl⟩, rfl⟩

theorem witness_UnreadInputDoesNotInfluenceAStep :
    step (prog [3, 0, 99] [8]) = .next (after (prog [3, 0, 99] [8])) ∧ (prog [3, 0, 99] [8]).status = .runnable ∧
    (after (prog [3, 0, 99] [8])).status ≠ .waitingForInput := ⟨rfl, rfl, by decide⟩

theorem witness_EarlierOutputDoesNotInfluenceAStep :
    step (prog [104, 5, 99]) = .next (after (prog [104, 5, 99])) := rfl

end Sys2Proof.Tests
end

section
/-! Memory (20_memory.md): what an instruction, a step and a host transaction do to the memory and its extent, and R43. -/

open Sys2Proof Sys2Proof.Machine Sys2Proof.Claims

namespace Sys2Proof.Proofs

/-! ### Memory and extent through an instruction and a step -/

/-- The memory and the extent of `t` are those of `s`. -/
def SameMemory (s t : State) : Prop := t.mem = s.mem ∧ t.ext = s.ext

/-- From `s` to `t`, memory and extent change by one MemWrite (R42), at the address the write slot of `i` names. -/
def WritesItsSlot (i : Instr) (s t : State) : Prop :=
  ∃ d w v, i.writeSlot = some d ∧ resolveWrite s d = .ok w ∧ SameMemory (memWrite w v s) t

theorem SameMemory.memRead_eq {s t : State} (h : SameMemory s t) (a : Nat) : memRead t a = memRead s a :=
  memRead_congr h.1 h.2 a

theorem WritesItsSlot.ext_le {i : Instr} {s t : State} (h : WritesItsSlot i s t) : s.ext ≤ t.ext := by
  obtain ⟨d, w, v, -, -, -, hext⟩ := h
  rw [hext]
  exact le_max_left _ _

/-- Only the cell the write slot names can read differently afterwards. -/
theorem WritesItsSlot.writeTarget_eq {i : Instr} {s t : State} (h : WritesItsSlot i s t) (hm : s.MemoryOk) {a : Nat}
    (ha : memRead t a ≠ memRead s a) : ∃ d, i.writeSlot = some d ∧ writeTarget s d = (a : Int) := by
  obtain ⟨d, w, v, hd, hw, hsame⟩ := h
  rw [hsame.memRead_eq, memRead_memWrite hm] at ha
  obtain ⟨haddr, hwt, -⟩ := resolveWrite_ok hw
  have haw : a = w := by
    by_contra hne
    exact ha (if_neg hne)
  refine ⟨d, hd, ?_⟩
  rw [haw, hwt, Int.toNat_of_nonneg haddr.1]

/-- An instruction writes the cell its write slot names, or leaves memory and extent alone. -/
theorem execCase_memory {i : Instr} {s t : State} (h : ExecCase i s t) : SameMemory s t ∨ WritesItsSlot i s t := by
  cases h with
  | stored _ d hd w hw r _ => exact .inr ⟨d, w, r, hd, hw, rfl, rfl⟩
  | tookInput d hi w hw x rest _ => exact .inr ⟨d, w, x, by rw [hi]; rfl, hw, rfl, rfl⟩
  | raised => exact .inl ⟨rfl, rfl⟩
  | suspended => exact .inl ⟨rfl, rfl⟩
  | output => exact .inl ⟨rfl, rfl⟩
  | jumped => exact .inl ⟨rfl, rfl⟩
  | fellThrough => exact .inl ⟨rfl, rfl⟩
  | rebased => exact .inl ⟨rfl, rfl⟩
  | halted => exact .inl ⟨rfl, rfl⟩

/-- A step writes the cell the write slot of its instruction names, or leaves memory and extent alone. -/
theorem step_memory {s t : State} (h : step s = .next t) :
    SameMemory s t ∨ ∃ i, Runs s i ∧ WritesItsSlot i s t := by
  cases step_cases h with
  | notEnabled => exact .inl ⟨rfl, rfl⟩
  | runaway => exact .inl ⟨rfl, rfl⟩
  | undecodable => exact .inl ⟨rfl, rfl⟩
  | executed hr he i hd _ hx => exact (execCase_memory hx).imp_right fun hw => ⟨i, ⟨hr, he, hd⟩, hw⟩

theorem step_ext_le {s t : State} (h : step s = .next t) : s.ext ≤ t.ext := by
  rcases step_memory h with ⟨-, hext⟩ | ⟨i, -, hw⟩
  · exact hext.ge
  · exact hw.ext_le

/-! ### Memory and extent through a host transaction -/

/-- RUN on a terminal VM gives its status back and changes nothing (R209). -/
theorem transact_run_of_terminal {s : State} (fuel : Nat) (h : s.running = false) (ht : s.Terminal) :
    transact (.run fuel) s = .next (s, .status s.status) := by
  have hnot : ¬ s.running = true := by simp [h]
  rw [transact, if_neg hnot]
  exact if_pos ht

/-- `s.ext ≤ t.ext` is reflexive and transitive, and holds across every step and across the return of RUN. -/
theorem runLoop_ext_le {fuel : Nat} {s t : State} {r : Reply} (h : runLoop fuel s = .next (t, r)) : s.ext ≤ t.ext :=
  runLoop_induction (fun s t => s.ext ≤ t.ext) (fun _ => le_rfl) (fun _ _ _ => le_trans) (fun _ _ => step_ext_le)
    (fun _ => le_rfl) fuel s t r h

theorem transact_run_ext_le {fuel : Nat} {s t : State} {r : Reply} (h : transact (.run fuel) s = .next (t, r)) :
    s.ext ≤ t.ext := by
  have hidle := transact_idle h
  by_cases ht : s.Terminal
  · rw [transact_run_of_terminal fuel hidle ht] at h
    cases h
    exact le_rfl
  · rw [transact_run_of_not_terminal fuel hidle ht] at h
    exact (runLoop_ext_le h :)

theorem popOutput_sameMemory (s : State) : SameMemory s (popOutput s).1 := by
  unfold popOutput
  split <;> exact ⟨rfl, rfl⟩

/-- A transaction other than LOAD and RUN leaves memory and extent alone (R211). -/
theorem transact_sameMemory {x : Transaction} {s t : State} {r : Reply} (hload : ∀ p, x ≠ .load p)
    (hrun : ∀ n, x ≠ .run n) (h : transact x s = .next (t, r)) : SameMemory s t := by
  have hnot : ¬ s.running = true := by simp [transact_idle h]
  unfold transact at h
  rw [if_neg hnot] at h
  cases x with
  | load p => exact absurd rfl (hload p)
  | run n => exact absurd rfl (hrun n)
  | inPush v =>
    simp only at h
    split at h <;> cases h
    exact ⟨rfl, rfl⟩
  | outPop =>
    injection h with hpop
    have := popOutput_sameMemory s
    rwa [hpop] at this
  | readStatus => cases h; exact ⟨rfl, rfl⟩
  | inspect a =>
    simp only at h
    split at h <;> cases h
    exact ⟨rfl, rfl⟩
  | inspectRegs => cases h; exact ⟨rfl, rfl⟩

/-- Settles O29 (R43): a step writes at most the one cell its write slot names, a RUN is a chain of such steps, and the
other transactions but LOAD touch neither memory nor extent. -/
theorem memoryNeverShrinks : Obligations.MemoryNeverShrinks := by
  refine ⟨fun s t h => step_ext_le h, fun s t hm h a ha => ?_, fun fuel s t r h => transact_run_ext_le h,
    fun x s t r hload hrun h => ?_⟩
  · rcases step_memory h with hsame | ⟨i, hi, hw⟩
    · exact absurd (hsame.memRead_eq a) ha
    · obtain ⟨d, hd, hda⟩ := hw.writeTarget_eq hm ha
      exact ⟨i, d, hi, hd, hda⟩
  · have hsame := transact_sameMemory hload hrun h
    exact ⟨hsame.2, hsame.memRead_eq⟩

end Sys2Proof.Proofs
end

section
/-! Encoding (30_encoding.md R68, R70, R73): what the formats decide about a word with legal modes, and R68. -/

open Sys2Proof Sys2Proof.Machine Sys2Proof.Claims

namespace Sys2Proof.Proofs

/-! ### A rejected word, from the decoder to the step -/

/-- A word the decoder rejects whatever cells follow it is illegal: the step that meets it raises the cause and does
nothing else (R73, R203). -/
theorem illegal_of_decode {w : Cell} {e : DecodeError} (h : ∀ p1 p2 p3, decode w p1 p2 p3 = .error e) :
    Illegal w e (Cause.ofDecodeError e) := by
  refine ⟨h, fun s ⟨hrun, hext, hword⟩ => ?_⟩
  have hdec : decodeAt s = .error e := by
    rw [← h (memRead s (s.ip + 1)) (memRead s (s.ip + 2)) (memRead s (s.ip + 3)), ← hword]
    rfl
  rw [step_of_runnable hrun, fetchDecodeExecute, if_pos hext, hdec]
  rfl

/-! ### The slots and the formats of the opcode table -/

/-- The number of slots of a format (R64). -/
def slotCount : Form → Nat
  | .none _ => 0
  | .read _ => 1
  | .write _ => 1
  | .readRead _ => 2
  | .readReadWrite _ => 3

/-- The number of the write slot of a format that has one (R64). -/
def writeSlotNumber : Form → Option Nat
  | .none _ => none
  | .read _ => none
  | .write _ => some 1
  | .readRead _ => none
  | .readReadWrite _ => some 3

/-- Every listed opcode has a format, with the arity and the write slot of the opcode. -/
theorem exists_formOf {opc : Nat} (h : opc ∈ opcodes) :
    ∃ f, formOf opc = some f ∧ slotCount f = arityOf opc ∧ writeSlotNumber f = writeSlotOf opc := by
  simp only [opcodes, List.mem_cons, List.not_mem_nil, or_false] at h
  rcases h with rfl | rfl | rfl | rfl | rfl | rfl | rfl | rfl | rfl | rfl <;> exact ⟨_, rfl, rfl, rfl⟩

/-- A word that is no negative number is decoded by the format of its opcode field. -/
theorem decode_natCast {w : Nat} {f : Form} (h : formOf (w % 100) = some f) (p1 p2 p3 : Cell) :
    decode (w : Int) p1 p2 p3 = f.decode w p1 p2 p3 := by
  simp [decode, h]

theorem exists_readSlot {m : Nat} (h : m ≤ 2) (p : Cell) : ∃ a, readSlot m p = some a := by
  match m, h with
  | 0, _ | 1, _ | 2, _ => exact ⟨_, rfl⟩

theorem writeSlot_eq_immediateWrite_iff {m : Nat} {p : Cell} : writeSlot m p = .error .immediateWrite ↔ m = 1 := by
  match m with
  | 0 | 1 | 2 | _ + 3 => simp [writeSlot]

/-- Making an instruction of the write operand keeps the error of the write slot. -/
theorem map_writeSlot_eq_immediateWrite_iff {m : Nat} {p : Cell} (mk : WriteOperand → Instr) :
    (writeSlot m p).map mk = .error .immediateWrite ↔ m = 1 := by
  rw [← writeSlot_eq_immediateWrite_iff (p := p)]
  cases writeSlot m p <;> simp [Except.map]

/-! ### Words with legal modes -/

/-- Digit `k + 1` of `w` is a mode if slot `k` is one of the `n` slots, and 0 otherwise (R70). -/
def LegalMode (n w k : Nat) : Prop := if k ≤ n then digit w (k + 1) ≤ 2 else digit w (k + 1) = 0

/-- `w` has no illegal mode for a format of `n` slots (R70). -/
structure LegalModes (n w : Nat) : Prop where
  slot1 : LegalMode n w 1
  slot2 : LegalMode n w 2
  slot3 : LegalMode n w 3
  high : highDigits w = 0

theorem legalMode_of_not_badModeDigit {w k : Nat} (h : ¬ BadModeDigit w k) : LegalMode (arityOf (w % 100)) w k := by
  unfold BadModeDigit at h
  unfold LegalMode
  split at h
  · rwa [if_pos ‹_›, ← Nat.not_lt]
  · rwa [if_neg ‹_›, ← not_ne_iff]

theorem legalModes_of_not_hasIllegalMode {w : Nat} (h : ¬ HasIllegalMode w) : LegalModes (arityOf (w % 100)) w := by
  obtain ⟨hdigits, hhigh⟩ := not_or.1 h
  have hlegal : ∀ k ∈ [1, 2, 3], LegalMode (arityOf (w % 100)) w k := fun k hk =>
    legalMode_of_not_badModeDigit fun hbad => hdigits ⟨k, hk, hbad⟩
  exact ⟨hlegal 1 (by simp), hlegal 2 (by simp), hlegal 3 (by simp), not_not.1 hhigh⟩

/-- Once every mode is legal, a format rejects a word with IMMEDIATE_WRITE exactly for mode digit 1 on its write slot
(R68): its read slots all resolve, so the write slot alone decides. -/
theorem formDecode_eq_immediateWrite_iff {f : Form} {w : Nat} (h : LegalModes (slotCount f) w) (p1 p2 p3 : Cell) :
    f.decode w p1 p2 p3 = .error .immediateWrite ↔ ∃ k, writeSlotNumber f = some k ∧ digit w (k + 1) = 1 := by
  obtain ⟨hslot1, hslot2, hslot3, hhigh⟩ := h
  cases f with
  | none i =>
    have h1 : digit w 2 = 0 := hslot1
    have h2 : digit w 3 = 0 := hslot2
    have h3 : digit w 4 = 0 := hslot3
    simp [Form.decode, writeSlotNumber, h1, h2, h3, hhigh]
  | read mk =>
    obtain ⟨a, ha⟩ := exists_readSlot (m := digit w 2) hslot1 p1
    have h2 : digit w 3 = 0 := hslot2
    have h3 : digit w 4 = 0 := hslot3
    simp [Form.decode, writeSlotNumber, ha, h2, h3, hhigh]
  | write mk =>
    have h2 : digit w 3 = 0 := hslot2
    have h3 : digit w 4 = 0 := hslot3
    simp [Form.decode, writeSlotNumber, map_writeSlot_eq_immediateWrite_iff, h2, h3, hhigh]
  | readRead mk =>
    obtain ⟨a, ha⟩ := exists_readSlot (m := digit w 2) hslot1 p1
    obtain ⟨b, hb⟩ := exists_readSlot (m := digit w 3) hslot2 p2
    have h3 : digit w 4 = 0 := hslot3
    simp [Form.decode, writeSlotNumber, ha, hb, h3, hhigh]
  | readReadWrite mk =>
    obtain ⟨a, ha⟩ := exists_readSlot (m := digit w 2) hslot1 p1
    obtain ⟨b, hb⟩ := exists_readSlot (m := digit w 3) hslot2 p2
    simp [Form.decode, writeSlotNumber, map_writeSlot_eq_immediateWrite_iff, ha, hb, hhigh]

/-- Settles O5 (R68): with legal modes the write slot alone decides, so the rejection does not depend on the parameters
and the step can only raise it. -/
theorem immediateModeOnAWriteSlotIsRejected : Obligations.ImmediateModeOnAWriteSlotIsRejected := by
  intro w hopc hmodes
  obtain ⟨f, hform, hcount, hslot⟩ := exists_formOf hopc
  have hlegal : LegalModes (slotCount f) w := hcount ▸ legalModes_of_not_hasIllegalMode hmodes
  have hiff : ∀ p1 p2 p3 : Cell, decode (w : Int) p1 p2 p3 = .error .immediateWrite ↔
      ∃ k, writeSlotOf (w % 100) = some k ∧ digit w (k + 1) = 1 := fun p1 p2 p3 => by
    rw [decode_natCast hform, ← hslot]
    exact formDecode_eq_immediateWrite_iff hlegal p1 p2 p3
  exact ⟨hiff, fun himm => illegal_of_decode fun p1 p2 p3 => (hiff p1 p2 p3).2 himm⟩

end Sys2Proof.Proofs
end

section
/-! Arithmetic (40_arithmetic.md R101, R102): the words of an F4 opcode, the operands and the store the F4 instructions
share, and the rules of ADD and MUL. -/

open Sys2Proof Sys2Proof.Machine Sys2Proof.Claims

namespace Sys2Proof.Proofs

/-! ### An accepted word, from the decoder to the step -/

/-- A word the decoder accepts means what the decoder says: a step that meets it executes that instruction (R73, R74). -/
theorem means_of_decode {w p1 p2 p3 : Cell} {i : Instr} (h : decode w p1 p2 p3 = .ok i) : Means w p1 p2 p3 i := by
  refine ⟨h, fun s ⟨hrun, hext, hword⟩ h1 h2 h3 => ?_⟩
  have hdec : decodeAt s = .ok i := by
    rw [← h, ← hword, ← h1, ← h2, ← h3]
    rfl
  rw [step_of_runnable hrun, fetchDecodeExecute, if_pos hext, hdec]

/-! ### Slots by their mode digit (R63) -/

theorem readSlot_of_readForm {m : Nat} {p : Cell} {op : ReadOperand} (h : ReadForm m p op) : readSlot m p = some op := by
  rcases h with ⟨rfl, rfl⟩ | ⟨rfl, rfl⟩ | ⟨rfl, rfl⟩ <;> rfl

theorem writeSlot_of_writeForm {m : Nat} {p : Cell} {d : WriteOperand} (h : WriteForm m p d) :
    writeSlot m p = .ok d := by
  rcases h with ⟨rfl, rfl⟩ | ⟨rfl, rfl⟩ <;> rfl

theorem readSlot_eq_none {m : Nat} (h : 2 < m) (p : Cell) : readSlot m p = none := by
  match m, h with
  | _ + 3, _ => rfl

theorem writeSlot_eq_illegalMode {m : Nat} (h : 2 < m) (p : Cell) : writeSlot m p = .error .illegalMode := by
  match m, h with
  | _ + 3, _ => rfl

/-! ### The digits of a word (R60) -/

/-- The word of `wordOf` as the natural number whose digits the decoder reads. -/
def wordNat (hi m3 m2 m1 code : Nat) : Nat := hi * 100000 + m3 * 10000 + m2 * 1000 + m1 * 100 + code

theorem wordOf_eq_natCast (hi m3 m2 m1 code : Nat) : wordOf hi m3 m2 m1 code = (wordNat hi m3 m2 m1 code : Int) := rfl

section digits
variable {hi m3 m2 m1 code : Nat} (hcode : code < 100) (h1 : m1 < 10) (h2 : m2 < 10) (h3 : m3 < 10)
include hcode

theorem wordNat_mod : wordNat hi m3 m2 m1 code % 100 = code := by
  unfold wordNat; omega

include h1

theorem digit_two_wordNat : digit (wordNat hi m3 m2 m1 code) 2 = m1 := by
  simp only [digit, wordNat]; omega

include h2

theorem digit_three_wordNat : digit (wordNat hi m3 m2 m1 code) 3 = m2 := by
  simp only [digit, wordNat]; omega

include h3

theorem digit_four_wordNat : digit (wordNat hi m3 m2 m1 code) 4 = m3 := by
  simp only [digit, wordNat]; omega

theorem highDigits_wordNat : highDigits (wordNat hi m3 m2 m1 code) = hi := by
  simp only [highDigits, wordNat]; omega

end digits

/-- A word with a listed opcode is decoded by the format of that opcode. -/
theorem decode_wordOf {code : Nat} {f : Form} (hform : formOf code = some f) (hcode : code < 100)
    (hi m3 m2 m1 : Nat) (p1 p2 p3 : Cell) :
    decode (wordOf hi m3 m2 m1 code) p1 p2 p3 = f.decode (wordNat hi m3 m2 m1 code) p1 p2 p3 := by
  rw [wordOf_eq_natCast, decode_natCast]
  rwa [wordNat_mod hcode]

/-! ### The words of an F4 opcode -/

/-- F4 rejects a word with a digit that is no mode, or with a digit above the third mode (R70). -/
theorem decode_readReadWrite_illegalMode {w : Nat} (mk : ReadOperand → ReadOperand → WriteOperand → Instr)
    (h : 2 < digit w 2 ∨ 2 < digit w 3 ∨ 2 < digit w 4 ∨ highDigits w ≠ 0) (p1 p2 p3 : Cell) :
    (Form.readReadWrite mk).decode w p1 p2 p3 = .error .illegalMode := by
  rcases h with h | h | h | h
  · simp [Form.decode, readSlot_eq_none h]
  · simp [Form.decode, readSlot_eq_none h]
  · simp only [Form.decode, writeSlot_eq_illegalMode h]
    cases readSlot (digit w 2) p1 <;> cases readSlot (digit w 3) p2 <;> simp [Except.map]
  · simp [Form.decode, h]

/-- F4 makes its instruction of three operands whose modes stand in the word. -/
theorem decode_readReadWrite_ok {w : Nat} {p1 p2 p3 : Cell} {a b : ReadOperand} {d : WriteOperand}
    (mk : ReadOperand → ReadOperand → WriteOperand → Instr) (ha : ReadForm (digit w 2) p1 a)
    (hb : ReadForm (digit w 3) p2 b) (hd : WriteForm (digit w 4) p3 d) (hhigh : highDigits w = 0) :
    (Form.readReadWrite mk).decode w p1 p2 p3 = .ok (mk a b d) := by
  simp [Form.decode, readSlot_of_readForm ha, readSlot_of_readForm hb, writeSlot_of_writeForm hd, hhigh, Except.map]

/-- The words of an F4 opcode are those of the table: its format decides on the mode digits alone. -/
theorem wordsReadReadWrite {code : Nat} {mk : ReadOperand → ReadOperand → WriteOperand → Instr}
    (hform : formOf code = some (.readReadWrite mk)) (hcode : code < 100) : WordsReadReadWrite code mk := by
  intro hi m3 m2 m1 h1 h2 h3
  have hdecode := decode_wordOf hform hcode hi m3 m2 m1
  have d2 := digit_two_wordNat (hi := hi) (m3 := m3) (m2 := m2) hcode h1
  have d3 := digit_three_wordNat (hi := hi) (m3 := m3) hcode h1 h2
  have d4 := digit_four_wordNat (hi := hi) hcode h1 h2 h3
  have dhigh := highDigits_wordNat (hi := hi) hcode h1 h2 h3
  refine ⟨fun hbad => illegal_of_decode fun p1 p2 p3 => ?_, fun hm1 hm2 hm3 hhi => illegal_of_decode fun p1 p2 p3 => ?_,
    fun p1 p2 p3 a b d ha hb hd hhi => means_of_decode ?_⟩
  · rw [hdecode]
    exact decode_readReadWrite_illegalMode mk (by rwa [d2, d3, d4, dhigh]) p1 p2 p3
  · rw [hdecode]
    have hlegal : LegalModes (slotCount (.readReadWrite mk)) (wordNat hi m3 m2 m1 code) :=
      { slot1 := d2.trans_le hm1
        slot2 := d3.trans_le hm2
        slot3 := d4.trans_le (by omega)
        high := dhigh.trans hhi }
    exact (formDecode_eq_immediateWrite_iff hlegal p1 p2 p3).2 ⟨3, rfl, d4.trans hm3⟩
  · rw [hdecode]
    exact decode_readReadWrite_ok mk (by rwa [d2]) (by rwa [d3]) (by rwa [d4]) (dhigh.trans hhi)

/-! ### Operand resolution in the words of the claims (R66, R67) -/

theorem resolveRead_of_readsAs {s : State} {op : ReadOperand} {x : Cell} (h : ReadsAs s op x) :
    resolveRead s op = .ok x := by
  cases op with
  | position p => obtain ⟨ha, rfl⟩ := h; exact readAt_of_inAddr ha
  | immediate p => cases h; rfl
  | relative p => obtain ⟨ha, rfl⟩ := h; exact readAt_of_inAddr ha

theorem resolveRead_of_badRead {s : State} {op : ReadOperand} (h : BadRead s op) :
    resolveRead s op = .error .badAddress := by
  cases op with
  | position p => exact readAt_of_not_inAddr h
  | immediate p => exact h.elim
  | relative p => exact readAt_of_not_inAddr h

theorem resolveWrite_of_not_inAddr {s : State} {d : WriteOperand} (h : ¬ s.cfg.InAddr (writeTarget s d)) :
    resolveWrite s d = .error .badAddress := by
  simp only [resolveWrite, checkAddress, if_neg h]

theorem resolveWrite_of_memLimit_le {s : State} {d : WriteOperand} (ha : s.cfg.InAddr (writeTarget s d))
    (hl : s.cfg.memLimit ≤ (writeTarget s d).toNat) : resolveWrite s d = .error .memoryExhausted := by
  simp only [resolveWrite, checkAddress, if_pos ha, if_neg hl.not_gt]

/-! ### What the F4 instructions share (R100, R205) -/

/-- The slots are resolved in order, so the first bad one decides, whatever the instruction computes. -/
theorem operandErrors_of_storeBinary {i : Instr} {f : State → Cell → Cell → Except Cause Cell} {a b : ReadOperand}
    {d : WriteOperand} (h : ∀ s, exec i s = storeBinary (f s) a b d s) : OperandErrors i a b d := by
  intro s
  rw [h, storeBinary]
  refine ⟨fun ha => ?_, fun x ha hb => ?_, fun x y ha hb hd => ?_, fun x y ha hb hd hl => ?_⟩
  · rw [resolveRead_of_badRead ha]; rfl
  · rw [resolveRead_of_readsAs ha, resolveRead_of_badRead hb]; rfl
  · rw [resolveRead_of_readsAs ha, resolveRead_of_readsAs hb, resolveWrite_of_not_inAddr hd]; rfl
  · rw [resolveRead_of_readsAs ha, resolveRead_of_readsAs hb, resolveWrite_of_memLimit_le hd hl]; rfl

/-- With its operands resolved, an F4 instruction stores what it computes or raises the error of the computation. -/
theorem storeBinary_of_resolved {f : Cell → Cell → Except Cause Cell} {a b : ReadOperand} {d : WriteOperand} {s : State}
    {x y : Cell} {w : Nat} (h : Resolved s a b d x y w) :
    storeBinary f a b d s = orRaise s (f x y) fun r => .next (advance 4 (some w) (memWrite w r s)) := by
  obtain ⟨ha, hb, hd, rfl, hl⟩ := h
  rw [storeBinary, resolveRead_of_readsAs ha, resolveRead_of_readsAs hb, resolveWrite_of hd hl]
  rfl

/-- The frame of a completed store (R42, R75). -/
theorem stored_advance_memWrite {s : State} (hm : s.MemoryOk) (len w : Nat) (v : Cell) :
    Stored s (advance len (some w) (memWrite w v s)) len w v where
  cell := (memRead_memWrite hm w w v).trans (if_pos rfl)
  otherCells a ha := (memRead_memWrite hm w a v).trans (if_neg ha)
  ext := rfl
  ip := nextIp_some _ _ _
  rb := rfl
  status := rfl
  cause := rfl
  running := rfl
  outQ := rfl
  cfg := rfl

/-- An F4 instruction that computes a value stores it and completes. -/
theorem storesResult_of_ok {i : Instr} {f : Cell → Cell → Except Cause Cell} {a b : ReadOperand} {d : WriteOperand}
    {s : State} {x y r : Cell} {w : Nat} (hexec : exec i s = storeBinary f a b d s) (hm : s.MemoryOk)
    (hres : Resolved s a b d x y w) (hr : f x y = .ok r) : StoresResult i s w r := by
  refine ⟨advance 4 (some w) (memWrite w r s), ?_, stored_advance_memWrite hm 4 w r, rfl⟩
  rw [hexec, storeBinary_of_resolved hres, hr, orRaise_ok]

/-! ### The wrapped result (R8) -/

/-- `wrap(x)` is a cell value at every width, the illegal ones included. -/
theorem inCell_wrap (c : Config) (x : Int) : c.InCell (wrap c x) := by
  have hpow : (2 : Int) ^ c.width ≤ 2 ^ (c.width - 1) * 2 := by
    rw [← pow_succ]
    exact pow_le_pow_right₀ (by decide) (by omega)
  have hpos : (0 : Int) < 2 ^ c.width := by positivity
  have hnonneg := Int.emod_nonneg (x - c.cmin) hpos.ne'
  have hlt := Int.emod_lt_of_pos (x - c.cmin) hpos
  constructor <;> simp only [wrap, Config.cmin, Config.cmax] at * <;> omega

theorem dvd_wrap_sub (c : Config) (x : Int) : (2 ^ c.width : Int) ∣ wrap c x - x :=
  Int.ModEq.dvd (wrap_emod c x).symm

/-! ### ADD and MUL -/

/-- An F4 instruction that stores the ALU's result of `f x y` follows the rule of arithmetic (R8, R100). -/
theorem arithmeticRule_of_exec {code : Nat} {mk : ReadOperand → ReadOperand → WriteOperand → Instr} {f : Int → Int → Int}
    (hform : formOf code = some (.readReadWrite mk)) (hcode : code < 100)
    (hexec : ∀ a b d s, exec (mk a b d) s = storeBinary (fun x y => alu s.cfg (f x y)) a b d s) :
    ArithmeticRule code mk f := by
  refine ⟨wordsReadReadWrite hform hcode, fun a b d => ⟨operandErrors_of_storeBinary (hexec a b d),
    fun s x y w hm hres => ⟨fun hin => ?_, fun hout hwrap => ?_, fun hout hfault => ?_⟩⟩⟩
  · exact storesResult_of_ok (hexec a b d s) hm hres (alu_of_inCell hin)
  · exact ⟨wrap s.cfg (f x y), inCell_wrap _ _, dvd_wrap_sub _ _,
      storesResult_of_ok (hexec a b d s) hm hres (alu_wrap hout hwrap)⟩
  · rw [hexec, storeBinary_of_resolved hres, alu_fault hout hfault]
    rfl

/-- Settles O16 (R101): opcode 1 has format F4 and stores the ALU's result of the sum. -/
theorem addFollowsItsRule : Obligations.AddFollowsItsRule :=
  arithmeticRule_of_exec rfl (by decide) fun _ _ _ _ => rfl

/-- Settles O17 (R102): opcode 2 has format F4 and stores the ALU's result of the exact product. -/
theorem mulFollowsItsRule : Obligations.MulFollowsItsRule :=
  arithmeticRule_of_exec rfl (by decide) fun _ _ _ _ => rfl

end Sys2Proof.Proofs
end

section
/-! Input and output (41_io.md R110 to R114): the words of an F2 opcode, the rules of IN and OUT, what suspends a step,
and the order of outputs along steps and RUNs. -/

open Sys2Proof Sys2Proof.Machine Sys2Proof.Claims

namespace Sys2Proof.Proofs

/-! ### A step whose instruction is known -/

theorem step_of_runs {s : State} {i : Instr} (h : Runs s i) : step s = exec i s := by
  obtain ⟨hrun, hext, hdec⟩ := h
  rw [step_of_runnable hrun, fetchDecodeExecute, if_pos hext, hdec]

/-! ### Outputs along steps (R111, R114) -/

theorem outputOf_of_runs_out {s : State} {a : ReadOperand} {x : Cell} (h : Runs s (.out a))
    (hx : resolveRead s a = .ok x) : outputOf s = [x] := by
  obtain ⟨hrun, hext, hdec⟩ := h
  simp only [outputOf, if_pos (And.intro hrun hext), hdec, hx]

theorem outputOf_of_badOperand {s : State} {a : ReadOperand} {c : Cause} (h : Runs s (.out a))
    (hx : resolveRead s a = .error c) : outputOf s = [] := by
  obtain ⟨hrun, hext, hdec⟩ := h
  simp only [outputOf, if_pos (And.intro hrun hext), hdec, hx]

theorem outputOf_of_not_runs_out {s : State} (h : ∀ a, ¬ Runs s (.out a)) : outputOf s = [] := by
  unfold outputOf
  split
  · rename_i henabled
    split
    · rename_i a hdec
      obtain ⟨hrun, hext⟩ := henabled
      exact absurd ⟨hrun, hext, hdec⟩ (h a)
    · rfl
  · rfl

/-- Only OUT touches the output queue (R32). -/
theorem execCase_outQ {i : Instr} {s t : State} (h : ExecCase i s t) (hi : ∀ a, i ≠ .out a) : t.outQ = s.outQ := by
  cases h with
  | output a he => exact absurd he (hi a)
  | raised | stored | suspended | tookInput | jumped | fellThrough | rebased | halted => rfl

/-- A step appends what it outputs to the back of out_q (R111). -/
theorem step_outQ {s t : State} (h : step s = .next t) : t.outQ = s.outQ ++ outputOf s := by
  by_cases hout : ∃ a, Runs s (.out a)
  · obtain ⟨a, ha⟩ := hout
    rw [step_of_runs ha] at h
    rcases orRaise_next h with ⟨x, hx, h⟩ | ⟨c, hc, rfl⟩
    · cases h
      rw [outputOf_of_runs_out ha hx]
      rfl
    · rw [outputOf_of_badOperand ha hc, List.append_nil]
      rfl
  · have hnot : ∀ a, ¬ Runs s (.out a) := not_exists.1 hout
    rw [outputOf_of_not_runs_out hnot, List.append_nil]
    cases step_cases h with
    | notEnabled | runaway | undecodable => rfl
    | executed hrun hext i hdec _ hx =>
      exact execCase_outQ hx fun a hi => hnot a ⟨hrun, hext, hi ▸ hdec⟩

theorem outputsAlong_succ {s u : State} (h : step s = .next u) (k : Nat) :
    outputsAlong (k + 1) s = outputOf s ++ outputsAlong k u := by
  rw [outputsAlong, h]

theorem stepsTo_outQ {k : Nat} {s t : State} (h : StepsTo k s t) : t.outQ = s.outQ ++ outputsAlong k s := by
  induction k generalizing s with
  | zero => cases h; exact (List.append_nil _).symm
  | succ k ih =>
    obtain ⟨u, hu, hsteps⟩ := h
    rw [outputsAlong_succ hu, ih hsteps, step_outQ hu, List.append_assoc]

/-! ### A RUN as a number of steps (R208, R213)

A RUN that returns early leaves the rest of its budget unused. The core's own transitions would spend it in the final
state, where they change `running` only; so the two agree up to `running`, which `leaveRun` clears. -/

/-- With no step enabled, any number of transitions changes at most `running`. -/
theorem stepsTo_of_not_runnable {s : State} (h : s.status ≠ .runnable) (k : Nat) :
    ∃ u, StepsTo k s u ∧ leaveRun s = leaveRun u := by
  induction k generalizing s with
  | zero => exact ⟨s, rfl, rfl⟩
  | succ k ih =>
    obtain ⟨u, hsteps, hu⟩ := ih (s := leaveRun s) h
    exact ⟨u, ⟨leaveRun s, step_of_not_runnable h, hsteps⟩, hu⟩

/-- The loop goes on from the state its step answers. -/
theorem runLoop_succ_next {fuel : Nat} {s t : State} {r : Reply} (hr : s.status = .runnable)
    (h : runLoop (fuel + 1) s = .next (t, r)) : ∃ u, step s = .next u ∧ runLoop fuel u = .next (t, r) := by
  rw [runLoop, if_pos hr] at h
  split at h
  · rename_i u hu; exact ⟨u, hu, h⟩
  · cases h
  · cases h

/-- A RUN leaves the state that as many transitions as its budget lead to, but for `running`. -/
theorem stepsTo_of_runLoop {fuel : Nat} {s t : State} {r : Reply} (h : runLoop fuel s = .next (t, r)) :
    ∃ u, StepsTo fuel s u ∧ leaveRun t = leaveRun u := by
  induction fuel generalizing s with
  | zero =>
    unfold runLoop at h
    split at h <;> cases h <;> exact ⟨_, rfl, rfl⟩
  | succ fuel ih =>
    by_cases hr : s.status = .runnable
    · obtain ⟨v, hv, h⟩ := runLoop_succ_next hr h
      obtain ⟨u, hsteps, hu⟩ := ih h
      exact ⟨u, ⟨v, hv, hsteps⟩, hu⟩
    · rw [runLoop_of_not_runnable hr] at h
      cases h
      exact stepsTo_of_not_runnable hr (fuel + 1)

theorem runLoop_outQ {fuel : Nat} {s t : State} {r : Reply} (h : runLoop fuel s = .next (t, r)) :
    t.outQ = s.outQ ++ outputsAlong fuel s := by
  obtain ⟨u, hsteps, hu⟩ := stepsTo_of_runLoop h
  have hout : (leaveRun t).outQ = (leaveRun u).outQ := by rw [hu]
  rwa [leaveRun_outQ, leaveRun_outQ, stepsTo_outQ hsteps] at hout

/-- Settles O42 (R114): each step appends its own output, by induction so do any number of them, and a RUN that is not
turned away at a terminal VM is such a number of steps. -/
theorem outputsAppearInProgramOrder : Obligations.OutputsAppearInProgramOrder := by
  refine ⟨fun k s t h => stepsTo_outQ h, fun s t fuel r h => ⟨fun hterm => ?_, fun hterm => ?_⟩⟩
  · rw [transact_run_of_terminal fuel (transact_idle h) hterm] at h
    cases h
    rfl
  · rw [transact_run_of_not_terminal fuel (transact_idle h) hterm] at h
    exact (runLoop_outQ h :)

/-! ### Suspension (R112) -/

/-- Of everything an instruction can do, only an Input that finds in_q empty makes the machine wait. -/
theorem execCase_waiting {i : Instr} {s t : State} (h : ExecCase i s t) (hs : s.status ≠ .waitingForInput)
    (ht : t.status = .waitingForInput) : (∃ d, i = .inp d) ∧ s.inQ = [] ∧ t = suspend s := by
  cases h with
  | suspended d hi w hw hq => exact ⟨⟨d, hi⟩, hq, rfl⟩
  | raised | halted => cases ht
  | stored | tookInput | output | jumped | fellThrough | rebased => exact absurd ht hs

/-- Settles O13 (R112): a transition that executes no instruction keeps the status or raises an error. -/
theorem onlyInputWithAnEmptyQueueSuspends : Obligations.OnlyInputWithAnEmptyQueueSuspends := by
  intro s t h hs ht
  cases step_cases h with
  | notEnabled => exact absurd ht hs
  | runaway | undecodable => cases ht
  | executed hrun hext i hdec _ hx =>
    obtain ⟨⟨d, rfl⟩, hq, rfl⟩ := execCase_waiting hx hs ht
    exact ⟨⟨d, hrun, hext, hdec⟩, hq, rfl⟩

/-! ### The words of an F2 opcode (R63, R64, R68, R70) -/

theorem digits_wordNat {hi m3 m2 m1 code : Nat} (hcode : code < 100) (h1 : m1 < 10) (h2 : m2 < 10) (h3 : m3 < 10) :
    digit (wordNat hi m3 m2 m1 code) 2 = m1 ∧ digit (wordNat hi m3 m2 m1 code) 3 = m2 ∧
      digit (wordNat hi m3 m2 m1 code) 4 = m3 ∧ highDigits (wordNat hi m3 m2 m1 code) = hi :=
  ⟨digit_two_wordNat hcode h1, digit_three_wordNat hcode h1 h2, digit_four_wordNat hcode h1 h2 h3,
    highDigits_wordNat hcode h1 h2 h3⟩

section format
variable {w : Nat} {p1 p2 p3 : Cell}

theorem decode_read_illegalMode (mk : ReadOperand → Instr)
    (h : 2 < digit w 2 ∨ digit w 3 ≠ 0 ∨ digit w 4 ≠ 0 ∨ highDigits w ≠ 0) :
    (Form.read mk).decode w p1 p2 p3 = .error .illegalMode := by
  rcases h with h | h | h | h
  · simp [Form.decode, readSlot_eq_none h]
  · simp [Form.decode, h]
  · simp [Form.decode, h]
  · simp [Form.decode, h]

theorem decode_write_illegalMode (mk : WriteOperand → Instr)
    (h : 2 < digit w 2 ∨ digit w 3 ≠ 0 ∨ digit w 4 ≠ 0 ∨ highDigits w ≠ 0) :
    (Form.write mk).decode w p1 p2 p3 = .error .illegalMode := by
  rcases h with h | h | h | h
  · simp [Form.decode, writeSlot_eq_illegalMode h, Except.map]
  · simp [Form.decode, h]
  · simp [Form.decode, h]
  · simp [Form.decode, h]

variable (h2 : digit w 3 = 0) (h3 : digit w 4 = 0) (hhigh : highDigits w = 0)
include h2 h3 hhigh

theorem decode_read_ok {a : ReadOperand} (mk : ReadOperand → Instr) (ha : ReadForm (digit w 2) p1 a) :
    (Form.read mk).decode w p1 p2 p3 = .ok (mk a) := by
  simp [Form.decode, readSlot_of_readForm ha, h2, h3, hhigh]

theorem decode_write_ok {d : WriteOperand} (mk : WriteOperand → Instr) (hd : WriteForm (digit w 2) p1 d) :
    (Form.write mk).decode w p1 p2 p3 = .ok (mk d) := by
  simp [Form.decode, writeSlot_of_writeForm hd, h2, h3, hhigh, Except.map]

theorem decode_write_immediateWrite (mk : WriteOperand → Instr) (h1 : digit w 2 = 1) :
    (Form.write mk).decode w p1 p2 p3 = .error .immediateWrite := by
  simp [Form.decode, map_writeSlot_eq_immediateWrite_iff, h1, h2, h3, hhigh]

end format

/-- The words of an F2 opcode with a read slot are those of the table. -/
theorem wordsRead {code : Nat} {mk : ReadOperand → Instr} (hform : formOf code = some (.read mk)) (hcode : code < 100) :
    WordsRead code mk := by
  intro hi m3 m2 m1 h1 h2 h3
  have hdecode := decode_wordOf hform hcode hi m3 m2 m1
  obtain ⟨d2, d3, d4, dhigh⟩ := digits_wordNat (hi := hi) hcode h1 h2 h3
  refine ⟨fun hbad => illegal_of_decode fun p1 p2 p3 => ?_, fun p1 p2 p3 a ha hm2 hm3 hhi => means_of_decode ?_⟩
  · rw [hdecode]
    exact decode_read_illegalMode mk (by rwa [d2, d3, d4, dhigh])
  · rw [hdecode]
    exact decode_read_ok (d3.trans hm2) (d4.trans hm3) (dhigh.trans hhi) mk (by rwa [d2])

/-- The words of an F2 opcode with a write slot are those of the table. -/
theorem wordsWrite {code : Nat} {mk : WriteOperand → Instr} (hform : formOf code = some (.write mk))
    (hcode : code < 100) : WordsWrite code mk := by
  intro hi m3 m2 m1 h1 h2 h3
  have hdecode := decode_wordOf hform hcode hi m3 m2 m1
  obtain ⟨d2, d3, d4, dhigh⟩ := digits_wordNat (hi := hi) hcode h1 h2 h3
  refine ⟨fun hbad => illegal_of_decode fun p1 p2 p3 => ?_,
    fun hm1 hm2 hm3 hhi => illegal_of_decode fun p1 p2 p3 => ?_,
    fun p1 p2 p3 d hd hm2 hm3 hhi => means_of_decode ?_⟩
  · rw [hdecode]
    exact decode_write_illegalMode mk (by rwa [d2, d3, d4, dhigh])
  · rw [hdecode]
    exact decode_write_immediateWrite (d3.trans hm2) (d4.trans hm3) (dhigh.trans hhi) mk (d2.trans hm1)
  · rw [hdecode]
    exact decode_write_ok (d3.trans hm2) (d4.trans hm3) (dhigh.trans hhi) mk (by rwa [d2])

/-! ### IN and OUT -/

theorem exec_inp (d : WriteOperand) (s : State) : exec (.inp d) s = execInp d s := rfl

theorem exec_out (a : ReadOperand) (s : State) : exec (.out a) s = execOut a s := rfl

theorem exec_inp_of_error {s : State} {d : WriteOperand} {c : Cause} (h : resolveWrite s d = .error c) :
    exec (.inp d) s = .next (errored c s) := by
  rw [exec_inp, execInp, h]
  rfl

theorem exec_inp_of_empty {s : State} {d : WriteOperand} {w : Nat} (h : resolveWrite s d = .ok w) (hq : s.inQ = []) :
    exec (.inp d) s = .next (suspend s) := by
  rw [exec_inp, execInp, h, orRaise_ok, hq]

theorem exec_inp_of_cons {s : State} {d : WriteOperand} {w : Nat} {v : Cell} {rest : List Cell}
    (h : resolveWrite s d = .ok w) (hq : s.inQ = v :: rest) :
    exec (.inp d) s = .next (advance 2 (some w) (setInQ rest (memWrite w v s))) := by
  rw [exec_inp, execInp, h, orRaise_ok, hq]

/-- `Stored` leaves the input queue open, so the frame of a completed store is also that of a completed IN. -/
theorem stored_advance_setInQ_memWrite {s : State} (hm : s.MemoryOk) (len w : Nat) (v : Cell) (rest : List Cell) :
    Stored s (advance len (some w) (setInQ rest (memWrite w v s))) len w v :=
  { stored_advance_memWrite hm len w v with }

/-- Settles O22 (R110): opcode 3 has format F2 with a write slot; the slot is resolved before the queue is looked at. -/
theorem inputFollowsItsRule : Obligations.InputFollowsItsRule := by
  refine ⟨wordsWrite rfl (by decide), fun d s => ⟨fun ha => ?_, fun ha hl => ?_, fun ha hl => ⟨fun hq => ?_, ?_⟩⟩⟩
  · exact exec_inp_of_error (resolveWrite_of_not_inAddr ha)
  · exact exec_inp_of_error (resolveWrite_of_memLimit_le ha hl)
  · exact exec_inp_of_empty (resolveWrite_of ha hl) hq
  · intro v rest hm hq
    exact ⟨_, exec_inp_of_cons (resolveWrite_of ha hl) hq, stored_advance_setInQ_memWrite hm 2 _ v rest, rfl⟩

/-- Settles O23 (R111): opcode 4 has format F2 with a read slot; its one operand is resolved and appended. -/
theorem outputFollowsItsRule : Obligations.OutputFollowsItsRule := by
  refine ⟨wordsRead rfl (by decide), fun a s => ⟨fun ha => ?_, fun x hx => ?_⟩⟩
  · rw [exec_out, execOut, resolveRead_of_badRead ha]
    rfl
  · rw [exec_out, execOut, resolveRead_of_readsAs hx, orRaise_ok, advance_none]
    rfl

end Sys2Proof.Proofs
end

section
/-! Jumps (42_jumps.md R120 to R122): the words of an F3 opcode, and the rules of JT and JF. -/

open Sys2Proof Sys2Proof.Machine Sys2Proof.Claims

namespace Sys2Proof.Proofs

/-! ### The words of an F3 opcode (R63, R64, R70) -/

/-- F3 rejects a word with a digit that is no mode on a slot, or any digit above the second mode (R70). -/
theorem decode_readRead_illegalMode {w : Nat} {p1 p2 p3 : Cell} (mk : ReadOperand → ReadOperand → Instr)
    (h : 2 < digit w 2 ∨ 2 < digit w 3 ∨ digit w 4 ≠ 0 ∨ highDigits w ≠ 0) :
    (Form.readRead mk).decode w p1 p2 p3 = .error .illegalMode := by
  rcases h with h | h | h | h
  · simp [Form.decode, readSlot_eq_none h]
  · simp [Form.decode, readSlot_eq_none h]
  · simp [Form.decode, h]
  · simp [Form.decode, h]

/-- F3 makes its instruction of two operands whose modes stand in the word. -/
theorem decode_readRead_ok {w : Nat} {p1 p2 p3 : Cell} {a b : ReadOperand} (mk : ReadOperand → ReadOperand → Instr)
    (ha : ReadForm (digit w 2) p1 a) (hb : ReadForm (digit w 3) p2 b) (h3 : digit w 4 = 0) (hhigh : highDigits w = 0) :
    (Form.readRead mk).decode w p1 p2 p3 = .ok (mk a b) := by
  simp [Form.decode, readSlot_of_readForm ha, readSlot_of_readForm hb, h3, hhigh]

/-- The words of an F3 opcode are those of the table. -/
theorem wordsReadRead {code : Nat} {mk : ReadOperand → ReadOperand → Instr} (hform : formOf code = some (.readRead mk))
    (hcode : code < 100) : WordsReadRead code mk := by
  intro hi m3 m2 m1 h1 h2 h3
  have hdecode := decode_wordOf hform hcode hi m3 m2 m1
  obtain ⟨d2, d3, d4, dhigh⟩ := digits_wordNat (hi := hi) hcode h1 h2 h3
  refine ⟨fun hbad => illegal_of_decode fun p1 p2 p3 => ?_, fun p1 p2 p3 a b ha hb hm3 hhi => means_of_decode ?_⟩
  · rw [hdecode]
    exact decode_readRead_illegalMode mk (by rwa [d2, d3, d4, dhigh])
  · rw [hdecode]
    exact decode_readRead_ok mk (by rwa [d2]) (by rwa [d3]) (d4.trans hm3) (dhigh.trans hhi)

/-! ### JumpTo and what the two jumps share (R120) -/

theorem jumpTo_of_nonneg {t : Cell} (h : 0 ≤ t) (s : State) : jumpTo t s = .next (setIp t.toNat s) :=
  if_neg h.not_gt

theorem jumpTo_of_neg {t : Cell} (h : t < 0) (s : State) : jumpTo t s = .next (raiseError .badJumpTarget s) :=
  if_pos h

/-- With both operands resolved, the first decides between JumpTo of the second and the advance. -/
theorem jumpWhen_of_readsAs {s : State} {c t : ReadOperand} {x y : Cell} (taken : Cell → Bool) (hx : ReadsAs s c x)
    (hy : ReadsAs s t y) : jumpWhen taken c t s = if taken x then jumpTo y s else .next (advance 3 none s) := by
  rw [jumpWhen, resolveRead_of_readsAs hx, resolveRead_of_readsAs hy, orRaise_ok, orRaise_ok]

/-- An F3 instruction that jumps when `f` holds of its first operand follows the rule of a jump. -/
theorem jumpRule_of_exec {code : Nat} {mk : ReadOperand → ReadOperand → Instr} {f : Int → Prop} [DecidablePred f]
    (hform : formOf code = some (.readRead mk)) (hcode : code < 100)
    (hexec : ∀ c t s, exec (mk c t) s = jumpWhen (fun x => decide (f x)) c t s) : JumpRule code mk f := by
  refine ⟨wordsReadRead hform hcode, fun c t s => ?_⟩
  rw [hexec]
  refine ⟨fun hc => ?_, fun x hx ht => ?_, fun x y hx hy => ?_⟩
  · rw [jumpWhen, resolveRead_of_badRead hc]
    rfl
  · rw [jumpWhen, resolveRead_of_readsAs hx, resolveRead_of_badRead ht]
    rfl
  · rw [jumpWhen_of_readsAs _ hx hy]
    refine ⟨fun hf hn => ?_, fun hf hn => ?_, fun hf => ?_⟩
    · rw [if_pos (decide_eq_true hf), jumpTo_of_nonneg hn]
      rfl
    · rw [if_pos (decide_eq_true hf), jumpTo_of_neg hn]
      rfl
    · rw [if_neg (by simpa using hf), advance_none]

/-! ### JT and JF -/

/-- Settles O20 (R121): opcode 5 has format F3 and jumps when its first operand is not 0. -/
theorem jumpIfTrueFollowsItsRule : Obligations.JumpIfTrueFollowsItsRule :=
  jumpRule_of_exec rfl (by decide) fun _ _ _ => rfl

/-- Settles O21 (R122): opcode 6 has format F3 and jumps when its first operand is 0. -/
theorem jumpIfFalseFollowsItsRule : Obligations.JumpIfFalseFollowsItsRule :=
  jumpRule_of_exec rfl (by decide) fun _ _ _ => rfl

end Sys2Proof.Proofs
end

section
/-! Comparisons (43_compare.md R130, R131): the truth value an F4 comparison stores, and the rules of LT and EQ. -/

open Sys2Proof Sys2Proof.Machine Sys2Proof.Claims

namespace Sys2Proof.Proofs

/-! ### The stored truth value (R23) -/

@[simp] theorem truthCell_true : truthCell true = 1 := rfl

@[simp] theorem truthCell_false : truthCell false = 0 := rfl

/-! ### LT and EQ -/

/-- An F4 instruction that stores the truth value of `f x y` follows the rule of a comparison. Such a result is never an
error, so once the slots are resolved the instruction completes. -/
theorem comparisonRule_of_exec {code : Nat} {mk : ReadOperand → ReadOperand → WriteOperand → Instr}
    {f : Int → Int → Prop} [DecidableRel f] (hform : formOf code = some (.readReadWrite mk)) (hcode : code < 100)
    (hexec : ∀ a b d s, exec (mk a b d) s = storeBinary (fun x y => .ok (truthCell (decide (f x y)))) a b d s) :
    ComparisonRule code mk f := by
  refine ⟨wordsReadReadWrite hform hcode, fun a b d => ⟨operandErrors_of_storeBinary (hexec a b d),
    fun s x y w hm hres => ?_⟩⟩
  have hstores : StoresResult (mk a b d) s w (truthCell (decide (f x y))) :=
    storesResult_of_ok (hexec a b d s) hm hres rfl
  refine ⟨fun hf => ?_, fun hf => ?_⟩
  · rwa [decide_eq_true hf, truthCell_true] at hstores
  · rwa [decide_eq_false hf, truthCell_false] at hstores

/-- Settles O18 (R130): opcode 7 has format F4 and stores whether its first operand is the lesser integer. -/
theorem lessThanFollowsItsRule : Obligations.LessThanFollowsItsRule :=
  comparisonRule_of_exec rfl (by decide) fun _ _ _ _ => rfl

/-- Settles O19 (R131): opcode 8 has format F4 and stores whether its operands are the same integer. -/
theorem equalsFollowsItsRule : Obligations.EqualsFollowsItsRule :=
  comparisonRule_of_exec rfl (by decide) fun _ _ _ _ => rfl

end Sys2Proof.Proofs
end

section
/-! System (44_system.md R140): what ARB does once its operand is known, and its rule. -/

open Sys2Proof Sys2Proof.Machine Sys2Proof.Claims

namespace Sys2Proof.Proofs

/-! ### ARB -/

theorem exec_arb (a : ReadOperand) (s : State) : exec (.arb a) s = execArb a s := rfl

theorem exec_arb_of_badRead {s : State} {a : ReadOperand} (h : BadRead s a) :
    exec (.arb a) s = .next (errored .badAddress s) := by
  rw [exec_arb, execArb, resolveRead_of_badRead h]
  rfl

/-- With the operand read, the ALU's answer to `rb + operand` decides: a value goes to rb, and only ip moves besides. -/
theorem exec_arb_of_alu_ok {s : State} {a : ReadOperand} {x r : Cell} (hx : ReadsAs s a x)
    (hr : alu s.cfg (s.rb + x) = .ok r) : exec (.arb a) s = .next { s with rb := r, ip := s.ip + 2 } := by
  rw [exec_arb, execArb, resolveRead_of_readsAs hx, orRaise_ok, hr, orRaise_ok, advance_none]
  rfl

theorem exec_arb_of_alu_error {s : State} {a : ReadOperand} {x : Cell} {c : Cause} (hx : ReadsAs s a x)
    (hc : alu s.cfg (s.rb + x) = .error c) : exec (.arb a) s = .next (errored c s) := by
  rw [exec_arb, execArb, resolveRead_of_readsAs hx, orRaise_ok, hc]
  rfl

/-- Settles O24 (R140): opcode 9 has format F2 with a read slot; its operand is read with the old rb, and the ALU's three
outcomes for the sum (in range, wrapped, overflow) are the three of the rule. -/
theorem adjustRelativeBaseFollowsItsRule : Obligations.AdjustRelativeBaseFollowsItsRule := by
  refine ⟨wordsRead rfl (by decide), fun a s => ⟨exec_arb_of_badRead,
    fun x hx => ⟨fun hin => ?_, fun hout hwrap => ?_, fun hout hfault => ?_⟩⟩⟩
  · exact exec_arb_of_alu_ok hx (alu_of_inCell hin)
  · exact ⟨wrap s.cfg (s.rb + x), inCell_wrap _ _, dvd_wrap_sub _ _, exec_arb_of_alu_ok hx (alu_wrap hout hwrap)⟩
  · exact exec_arb_of_alu_error hx (alu_fault hout hfault)

end Sys2Proof.Proofs
end

section
/-! Exceptions and the host interface (60_exceptions.md R200, R208): which steps and transactions change the status, and
RUN as the steps it takes. -/

open Sys2Proof Sys2Proof.Machine Sys2Proof.Claims

namespace Sys2Proof.Proofs

/-! ### The ways a step leaves Runnable (R76, R200) -/

/-- Of everything an instruction can do, only HLT halts. -/
theorem execCase_halted {i : Instr} {s t : State} (h : ExecCase i s t) (hs : s.status ≠ .halted)
    (ht : t.status = .halted) : i = .hlt := by
  cases h with
  | halted hi => exact hi
  | raised | suspended => cases ht
  | stored | tookInput | output | jumped | fellThrough | rebased => exact absurd ht hs

/-- Of everything an instruction can do, only raising a cause ends in Error. -/
theorem execCase_error {i : Instr} {s t : State} (h : ExecCase i s t) (hs : s.status ≠ .error)
    (ht : t.status = .error) : ∃ c, RaiseCase i s c ∧ t = raiseError c s := by
  cases h with
  | raised c hc => exact ⟨c, hc, rfl⟩
  | suspended | halted => cases ht
  | stored | tookInput | output | jumped | fellThrough | rebased => exact absurd ht hs

section step
variable {s t : State} (h : step s = .next t)
include h

theorem step_status_of_not_runnable (hs : s.status ≠ .runnable) : t.status = s.status := by
  rw [step_of_not_runnable hs] at h
  cases h
  rfl

/-- A Runnable machine waits after a step exactly when the step is an Input whose slot resolves and in_q is empty. -/
theorem step_waiting_iff (hs : s.status = .runnable) :
    t.status = .waitingForInput ↔ ∃ d w, Runs s (.inp d) ∧ resolveWrite s d = .ok w ∧ s.inQ = [] := by
  constructor
  · intro ht
    obtain ⟨⟨d, hruns⟩, hq, -⟩ := onlyInputWithAnEmptyQueueSuspends s t h (by simp [hs]) ht
    rw [step_of_runs hruns] at h
    rcases orRaise_next h with ⟨w, hw, -⟩ | ⟨c, -, rfl⟩
    · exact ⟨d, w, hruns, hw, hq⟩
    · cases ht
  · rintro ⟨d, w, hruns, hw, hq⟩
    rw [step_of_runs hruns, exec_inp_of_empty hw hq] at h
    cases h
    rfl

/-- A Runnable machine is halted after a step exactly when the step is a Halt. -/
theorem step_halted_iff (hs : s.status = .runnable) : t.status = .halted ↔ Runs s .hlt := by
  constructor
  · intro ht
    cases step_cases h with
    | notEnabled hnot => exact absurd hs hnot
    | runaway | undecodable => cases ht
    | executed hrun hext i hdec _ hx =>
      obtain rfl := execCase_halted hx (by simp [hs]) ht
      exact ⟨hrun, hext, hdec⟩
  · intro hruns
    rw [step_of_runs hruns] at h
    cases h
    rfl

/-- A step that ends in Error has raised a cause, and done nothing else (R203). -/
theorem step_error (hs : s.status ≠ .error) (ht : t.status = .error) : ∃ c, c ≠ .none ∧ t = raiseError c s := by
  cases step_cases h with
  | notEnabled => exact absurd ht hs
  | runaway => exact ⟨.runaway, by decide, rfl⟩
  | undecodable _ _ e _ => exact ⟨_, ofDecodeError_ne_none e, rfl⟩
  | executed _ _ i _ _ hx =>
    obtain ⟨c, hc, rfl⟩ := execCase_error hx hs ht
    exact ⟨c, raiseCase_ne_none hc, rfl⟩

end step

/-! ### What LOAD and the transactions besides RUN change (R211, R240) -/

/-- A LOAD that goes through leaves the fresh state of its program (R240). -/
theorem transact_load_eq {p : List Cell} {s u : State} {r : Reply} (h : transact (.load p) s = .next (u, r)) :
    u = State.load s.cfg p := by
  have hnot : ¬ s.running = true := by simp [transact_idle h]
  rw [transact, if_neg hnot] at h
  split at h <;> cases h
  rfl

theorem popOutput_fst_eq (s : State) : (popOutput s).1 = { s with outQ := s.outQ.tail } := by
  cases s with
  | mk cfg ip rb status cause mem ext running inQ outQ => cases outQ <;> rfl

/-- A transaction other than LOAD and RUN changes at most the two queues (R211). -/
theorem transact_changes_only_queues {x : Transaction} {s u : State} {r : Reply} (hload : ∀ p, x ≠ .load p)
    (hrun : ∀ n, x ≠ .run n) (h : transact x s = .next (u, r)) :
    ∃ ins outs, u = { s with inQ := ins, outQ := outs } := by
  have hnot : ¬ s.running = true := by simp [transact_idle h]
  unfold transact at h
  rw [if_neg hnot] at h
  cases x with
  | load p => exact absurd rfl (hload p)
  | run n => exact absurd rfl (hrun n)
  | inPush v =>
    simp only at h
    split at h <;> cases h
    exact ⟨s.inQ ++ [v], s.outQ, rfl⟩
  | outPop =>
    injection h with hpop
    have hu := popOutput_fst_eq s
    rw [hpop] at hu
    exact ⟨s.inQ, s.outQ.tail, hu⟩
  | inspect a =>
    simp only at h
    split at h <;> cases h
    exact ⟨s.inQ, s.outQ, rfl⟩
  | readStatus | inspectRegs => cases h; exact ⟨s.inQ, s.outQ, rfl⟩

/-- Settles O12 (R200): the rows of the table that a step takes are the ways an instruction can end, RUN either enters its
loop or returns at once, and of the other transactions only LOAD writes the status. -/
theorem statusChangesOnlyAsTheTransitionTableSays : Obligations.StatusChangesOnlyAsTheTransitionTableSays := by
  refine ⟨fun s t h => ⟨step_status_of_not_runnable h,
      fun hs => ⟨step_waiting_iff h hs, step_halted_iff h hs, fun ht => ?_⟩⟩,
    fun s u r fuel h => ⟨fun hwait => ?_, fun hterm => ?_⟩, fun s u r p h => ?_, fun s u r x hload hrun h => ?_⟩
  · obtain ⟨c, hc, rfl⟩ := step_error h (by simp [hs]) ht
    exact ⟨rfl, hc⟩
  · rwa [transact_run_of_not_terminal fuel (transact_idle h) (by simp [hwait])] at h
  · rw [transact_run_of_terminal fuel (transact_idle h) hterm] at h
    cases h
    rfl
  · rw [transact_load_eq h]
    rfl
  · obtain ⟨ins, outs, rfl⟩ := transact_changes_only_queues hload hrun h
    rfl

/-! ### RUN as the steps it takes (R208, R213) -/

/-- The loop spends one unit of its budget on each step from a Runnable state. -/
theorem runLoop_add_of_stepsTo {k : Nat} {s t : State} (h : StepsTo k s t)
    (hrun : ∀ j < k, ∃ u, StepsTo j s u ∧ u.status = .runnable) (fuel : Nat) :
    runLoop (k + fuel) s = runLoop fuel t := by
  induction k generalizing s with
  | zero =>
    cases h
    rw [Nat.zero_add]
  | succ k ih =>
    obtain ⟨u, hu, hsteps⟩ := h
    obtain ⟨_, rfl, hs⟩ := hrun 0 k.succ_pos
    have hrunNext : ∀ j < k, ∃ v, StepsTo j u v ∧ v.status = .runnable := fun j hj => by
      obtain ⟨v, ⟨u', hu', hv⟩, hstatus⟩ := hrun (j + 1) (Nat.succ_lt_succ hj)
      rw [hu] at hu'
      cases hu'
      exact ⟨v, hv, hstatus⟩
    rw [Nat.succ_add, runLoop_succ_of_step hs hu, ih hsteps hrunNext]

theorem runLoop_zero_of_runnable {s : State} (h : s.status = .runnable) : runLoop 0 s = .next (s, .notFinished) := by
  rw [runLoop, if_pos h]

/-- Settles O39 (R208): after the steps from Runnable states, what is left of the budget decides nothing once the status
is another, and a budget of exactly those steps is not finished at a Runnable state. -/
theorem runStepsUntilTheStatusIsNotRunnable : Obligations.RunStepsUntilTheStatusIsNotRunnable := by
  refine fun s hidle => ⟨fun hterm fuel => transact_run_of_terminal fuel hidle hterm,
    fun hterm k t hsteps hrun => ⟨fun ht fuel hfuel => ?_, fun ht => ?_⟩⟩
  · rw [transact_run_of_not_terminal fuel hidle hterm]
    obtain ⟨rest, rfl⟩ := Nat.exists_eq_add_of_le hfuel
    rw [runLoop_add_of_stepsTo hsteps hrun, runLoop_of_not_runnable ht]
    rfl
  · rw [transact_run_of_not_terminal k hidle hterm]
    exact (runLoop_add_of_stepsTo hsteps hrun 0).trans (runLoop_zero_of_runnable ht)

end Sys2Proof.Proofs
end

section
/-! Reset (70_reset_and_hazards.md R240): what LOAD answers for a legal program, and the fresh state it builds. -/

open Sys2Proof Sys2Proof.Machine Sys2Proof.Claims

namespace Sys2Proof.Proofs

/-! ### LOAD of a legal program (R211, R240, R241) -/

theorem transact_load_of_legal {s : State} {p : List Cell} (hidle : s.running = false) (hp : LegalProgram s.cfg p) :
    transact (.load p) s = .next (State.load s.cfg p, .nothing) := by
  have hnot : ¬ s.running = true := by simp [hidle]
  rw [transact, if_neg hnot]
  exact if_pos hp

/-! ### The fresh state (R28 to R32) -/

theorem memRead_load (c : Config) (p : List Cell) (a : Nat) : memRead (State.load c p) a = p.getD a 0 := by
  by_cases ha : a < p.length
  · calc memRead (State.load c p) a = (Memory.ofProgram p 0).read a := if_pos ha
      _ = p.getD a 0 := Memory.read_ofProgram p 0 a a.zero_le
  · have hle : p.length ≤ a := not_lt.1 ha
    rw [memRead_eq_zero_of_ext_le hle, List.getD_eq_default p 0 hle]

theorem load_memoryOk {c : Config} {p : List Cell} (hp : LegalProgram c p) : (State.load c p).MemoryOk := by
  obtain ⟨hlen, hcells⟩ := hp
  obtain ⟨hwf, hmem⟩ := Memory.ofProgram_spec p 0
  refine ⟨hwf, fun q hq => ?_, hlen⟩
  obtain ⟨-, hlt, hval⟩ := hmem q hq
  exact ⟨by simpa using hlt, hcells _ hval⟩

theorem load_registersOk (c : Config) (p : List Cell) : (State.load c p).RegistersOk :=
  ⟨Nat.two_pow_pos c.width, zero_inCell c, by simp⟩

theorem load_queuesOk (c : Config) (p : List Cell) : (State.load c p).QueuesOk := ⟨by simp, by simp⟩

theorem load_inv {c : Config} {p : List Cell} (hc : c.Legal) (hp : LegalProgram c p) : (State.load c p).Inv :=
  ⟨hc, load_memoryOk hp, load_registersOk c p, load_queuesOk c p⟩

/-- Settles O31 (R240): LOAD of a legal program answers `State.load`, whose cells are the program's and 0 beyond it, and
which has the invariant part by part. -/
theorem loadBuildsTheFreshState : Obligations.LoadBuildsTheFreshState := by
  intro s p hidle hlen hcells
  have hp : LegalProgram s.cfg p := ⟨hlen, hcells⟩
  exact ⟨State.load s.cfg p, transact_load_of_legal hidle hp, memRead_load s.cfg p, rfl, rfl, rfl, rfl, rfl, rfl, rfl,
    rfl, rfl, fun hc => load_inv hc hp⟩

end Sys2Proof.Proofs
end

section
/-! Encoding (30_encoding.md R69 to R71, R73, R80, R81): the decoder as the inverse of the encoder, what each format
decides about every word, and the table of legal words. -/

open Sys2Proof Sys2Proof.Machine Sys2Proof.Claims

namespace Sys2Proof.Proofs

/-! ### Operands by mode digit and raw parameter (R63) -/

theorem readForm_iff {m : Nat} {p : Cell} {a : ReadOperand} : ReadForm m p a ↔ m = a.mode.digit ∧ p = a.raw := by
  cases a <;> simp [ReadForm, ReadOperand.mode, ReadOperand.raw, Mode.digit, eq_comm]

theorem writeForm_iff {m : Nat} {p : Cell} {d : WriteOperand} : WriteForm m p d ↔ m = d.mode.digit ∧ p = d.raw := by
  cases d <;> simp [WriteForm, WriteOperand.mode, WriteOperand.raw, Mode.digit, eq_comm]

theorem readForm_of_readSlot {m : Nat} {p : Cell} {a : ReadOperand} (h : readSlot m p = some a) : ReadForm m p a := by
  match m, h with
  | 0, h | 1, h | 2, h => cases h; simp [ReadForm]

theorem writeForm_of_writeSlot {m : Nat} {p : Cell} {d : WriteOperand} (h : writeSlot m p = .ok d) :
    WriteForm m p d := by
  match m, h with
  | 0, h | 2, h => cases h; simp [WriteForm]

/-! ### The words of an F1 opcode (R63, R64, R70) -/

section
variable {w : Nat} {p1 p2 p3 : Cell} (i : Instr)

theorem decode_none_illegalMode (h : digit w 2 ≠ 0 ∨ digit w 3 ≠ 0 ∨ digit w 4 ≠ 0 ∨ highDigits w ≠ 0) :
    (Form.none i).decode w p1 p2 p3 = .error .illegalMode := by
  simp only [← not_and_or, ne_eq] at h
  exact if_neg h

theorem decode_none_ok (h1 : digit w 2 = 0) (h2 : digit w 3 = 0) (h3 : digit w 4 = 0) (hhigh : highDigits w = 0) :
    (Form.none i).decode w p1 p2 p3 = .ok i :=
  if_pos ⟨h1, h2, h3, hhigh⟩

end

/-- The words of an F1 opcode are those of the table. -/
theorem wordsNone {code : Nat} {i : Instr} (hform : formOf code = some (.none i)) (hcode : code < 100) :
    WordsNone code i := by
  intro hi m3 m2 m1 h1 h2 h3
  have hdecode := decode_wordOf hform hcode hi m3 m2 m1
  obtain ⟨d2, d3, d4, dhigh⟩ := digits_wordNat (hi := hi) hcode h1 h2 h3
  refine ⟨fun hbad => illegal_of_decode fun p1 p2 p3 => ?_, fun p1 p2 p3 hm1 hm2 hm3 hhi => means_of_decode ?_⟩
  · rw [hdecode]
    exact decode_none_illegalMode i (by rwa [d2, d3, d4, dhigh])
  · rw [hdecode]
    exact decode_none_ok i (d2.trans hm1) (d3.trans hm2) (d4.trans hm3) (dhigh.trans hhi)

/-! ### The cells of an instruction, by its format (R64, R81) -/

theorem digit_lt_ten (m : Mode) : m.digit < 10 := by cases m <;> decide

theorem modeDigits_one (code : Nat) (m1 : Mode) : code + 100 * modeDigits [m1] = wordNat 0 0 0 m1.digit code := by
  simp only [wordNat, modeDigits]
  omega

theorem modeDigits_two (code : Nat) (m1 m2 : Mode) :
    code + 100 * modeDigits [m1, m2] = wordNat 0 0 m2.digit m1.digit code := by
  simp only [wordNat, modeDigits]
  omega

theorem modeDigits_three (code : Nat) (m1 m2 m3 : Mode) :
    code + 100 * modeDigits [m1, m2, m3] = wordNat 0 m3.digit m2.digit m1.digit code := by
  simp only [wordNat, modeDigits]
  omega

/-- The instructions of format `f` are encoded with opcode `code`, the mode digits of their operands and their raw
parameters. -/
def EncodesAs (code : Nat) : Form → Prop
  | .none i => encode i = [wordOf 0 0 0 0 code]
  | .read mk => ∀ a, encode (mk a) = [wordOf 0 0 0 a.mode.digit code, a.raw]
  | .write mk => ∀ d, encode (mk d) = [wordOf 0 0 0 d.mode.digit code, d.raw]
  | .readRead mk => ∀ a b, encode (mk a b) = [wordOf 0 0 b.mode.digit a.mode.digit code, a.raw, b.raw]
  | .readReadWrite mk =>
    ∀ a b d, encode (mk a b d) = [wordOf 0 d.mode.digit b.mode.digit a.mode.digit code, a.raw, b.raw, d.raw]

/-- `formOf` lists the ten opcodes and no other (R64, R69). -/
theorem mem_opcodes_of_formOf {code : Nat} {f : Form} (h : formOf code = some f) : code ∈ opcodes := by
  unfold formOf at h
  split at h
  case h_11 => cases h
  all_goals decide

theorem encodesAs_of_formOf {code : Nat} {f : Form} (h : formOf code = some f) : EncodesAs code f := by
  have one (a : Mode) (p : Cell) : ([((code + 100 * modeDigits [a] : Nat) : Int), p] : List Cell) =
      [wordOf 0 0 0 a.digit code, p] := by rw [modeDigits_one, wordOf_eq_natCast]
  have two (a b : Mode) (p q : Cell) : ([((code + 100 * modeDigits [a, b] : Nat) : Int), p, q] : List Cell) =
      [wordOf 0 0 b.digit a.digit code, p, q] := by rw [modeDigits_two, wordOf_eq_natCast]
  have three (a b c : Mode) (p q r : Cell) :
      ([((code + 100 * modeDigits [a, b, c] : Nat) : Int), p, q, r] : List Cell) =
        [wordOf 0 c.digit b.digit a.digit code, p, q, r] := by rw [modeDigits_three, wordOf_eq_natCast]
  have hcode := mem_opcodes_of_formOf h
  simp only [opcodes, List.mem_cons, List.not_mem_nil, or_false] at hcode
  rcases hcode with rfl | rfl | rfl | rfl | rfl | rfl | rfl | rfl | rfl | rfl <;> cases h
  · exact fun _ _ _ => three _ _ _ _ _ _
  · exact fun _ _ _ => three _ _ _ _ _ _
  · exact fun _ => one _ _
  · exact fun _ => one _ _
  · exact fun _ _ => two _ _ _ _
  · exact fun _ _ => two _ _ _ _
  · exact fun _ _ _ => three _ _ _ _ _ _
  · exact fun _ _ _ => three _ _ _ _ _ _
  · exact fun _ => one _ _
  · rfl

/-! ### Decoding an encoding (R81) -/

section
variable {code : Nat} (hcode : code < 100) (rest : List Cell)
include hcode

theorem decodeCells_encode_none {i : Instr} (hform : formOf code = some (.none i)) :
    decodeCells (encode i ++ rest) = .ok i := by
  rw [show encode i = _ from encodesAs_of_formOf hform]
  have hword := wordsNone hform hcode 0 0 0 0 (by decide) (by decide) (by decide)
  exact (hword.2 _ _ _ rfl rfl rfl rfl).1

theorem decodeCells_encode_read {mk : ReadOperand → Instr} (hform : formOf code = some (.read mk)) (a : ReadOperand) :
    decodeCells (encode (mk a) ++ rest) = .ok (mk a) := by
  rw [encodesAs_of_formOf hform a]
  have hword := wordsRead hform hcode 0 0 0 _ (digit_lt_ten a.mode) (by decide) (by decide)
  exact (hword.2 _ _ _ a (readForm_iff.2 ⟨rfl, rfl⟩) rfl rfl rfl).1

theorem decodeCells_encode_write {mk : WriteOperand → Instr} (hform : formOf code = some (.write mk))
    (d : WriteOperand) : decodeCells (encode (mk d) ++ rest) = .ok (mk d) := by
  rw [encodesAs_of_formOf hform d]
  have hword := wordsWrite hform hcode 0 0 0 _ (digit_lt_ten d.mode) (by decide) (by decide)
  exact (hword.2.2 _ _ _ d (writeForm_iff.2 ⟨rfl, rfl⟩) rfl rfl rfl).1

theorem decodeCells_encode_readRead {mk : ReadOperand → ReadOperand → Instr}
    (hform : formOf code = some (.readRead mk)) (a b : ReadOperand) :
    decodeCells (encode (mk a b) ++ rest) = .ok (mk a b) := by
  rw [encodesAs_of_formOf hform a b]
  have hword := wordsReadRead hform hcode 0 0 _ _ (digit_lt_ten a.mode) (digit_lt_ten b.mode) (by decide)
  exact (hword.2 _ _ _ a b (readForm_iff.2 ⟨rfl, rfl⟩) (readForm_iff.2 ⟨rfl, rfl⟩) rfl rfl).1

theorem decodeCells_encode_readReadWrite {mk : ReadOperand → ReadOperand → WriteOperand → Instr}
    (hform : formOf code = some (.readReadWrite mk)) (a b : ReadOperand) (d : WriteOperand) :
    decodeCells (encode (mk a b d) ++ rest) = .ok (mk a b d) := by
  rw [encodesAs_of_formOf hform a b d]
  have hword := wordsReadReadWrite hform hcode 0 _ _ _ (digit_lt_ten a.mode) (digit_lt_ten b.mode) (digit_lt_ten d.mode)
  exact (hword.2.2 _ _ _ a b d (readForm_iff.2 ⟨rfl, rfl⟩) (readForm_iff.2 ⟨rfl, rfl⟩) (writeForm_iff.2 ⟨rfl, rfl⟩)
    rfl).1

end

/-- Settles O1 (R81): the word of an encoding has the mode digits of its operands, so it is a word of the instruction's
format, whatever the raw parameters and the cells behind them. -/
theorem decodingAnEncodedInstructionGivesItBack : Obligations.DecodingAnEncodedInstructionGivesItBack := by
  intro i rest
  cases i with
  | add a b d => exact decodeCells_encode_readReadWrite (code := 1) (by decide) rest rfl a b d
  | mul a b d => exact decodeCells_encode_readReadWrite (code := 2) (by decide) rest rfl a b d
  | inp d => exact decodeCells_encode_write (code := 3) (by decide) rest rfl d
  | out a => exact decodeCells_encode_read (code := 4) (by decide) rest rfl a
  | jt c t => exact decodeCells_encode_readRead (code := 5) (by decide) rest rfl c t
  | jf c t => exact decodeCells_encode_readRead (code := 6) (by decide) rest rfl c t
  | lt a b d => exact decodeCells_encode_readReadWrite (code := 7) (by decide) rest rfl a b d
  | eq a b d => exact decodeCells_encode_readReadWrite (code := 8) (by decide) rest rfl a b d
  | arb a => exact decodeCells_encode_read (code := 9) (by decide) rest rfl a
  | hlt => exact decodeCells_encode_none (code := 99) (by decide) rest rfl

/-! ### What decodes, by its format (R73) -/

/-- A word is the sum of its digits' places. -/
theorem wordNat_digits (v : Nat) : wordNat (highDigits v) (digit v 4) (digit v 3) (digit v 2) (v % 100) = v := by
  simp only [wordNat, highDigits, digit]
  omega

theorem wordOf_digits (v : Nat) : wordOf (highDigits v) (digit v 4) (digit v 3) (digit v 2) (v % 100) = (v : Int) :=
  congrArg Nat.cast (wordNat_digits v)

/-- A word that decodes is no negative number and has a listed opcode, whose format decides. -/
theorem exists_form_of_decode_ok {w p1 p2 p3 : Cell} {i : Instr} (h : decode w p1 p2 p3 = .ok i) :
    ∃ (v : Nat) (f : Form), w = (v : Int) ∧ formOf (v % 100) = some f ∧ f.decode v p1 p2 p3 = .ok i := by
  unfold decode at h
  split at h
  · cases h
  · rename_i hw
    split at h
    · rename_i f hform
      exact ⟨w.toNat, f, (Int.toNat_of_nonneg (not_lt.1 hw)).symm, hform, h⟩
    · cases h

theorem map_eq_ok {r : Except DecodeError WriteOperand} {mk : WriteOperand → Instr} {i : Instr}
    (h : r.map mk = .ok i) : ∃ d, r = .ok d ∧ i = mk d := by
  cases r with
  | ok d => cases h; exact ⟨d, rfl, rfl⟩
  | error e => cases h

section formDecode
variable {v : Nat} {p1 p2 p3 : Cell} {i j : Instr}

theorem eq_of_decode_none_ok (h : (Form.none j).decode v p1 p2 p3 = .ok i) :
    i = j ∧ digit v 2 = 0 ∧ digit v 3 = 0 ∧ digit v 4 = 0 ∧ highDigits v = 0 := by
  simp only [Form.decode] at h
  split at h <;> cases h
  exact ⟨rfl, ‹_›⟩

theorem exists_of_decode_read_ok {mk : ReadOperand → Instr} (h : (Form.read mk).decode v p1 p2 p3 = .ok i) :
    ∃ a, i = mk a ∧ ReadForm (digit v 2) p1 a ∧ digit v 3 = 0 ∧ digit v 4 = 0 ∧ highDigits v = 0 := by
  simp only [Form.decode] at h
  split at h
  · split at h <;> cases h
    exact ⟨_, rfl, readForm_of_readSlot ‹_›, ‹_›⟩
  · cases h

theorem exists_of_decode_write_ok {mk : WriteOperand → Instr} (h : (Form.write mk).decode v p1 p2 p3 = .ok i) :
    ∃ d, i = mk d ∧ WriteForm (digit v 2) p1 d ∧ digit v 3 = 0 ∧ digit v 4 = 0 ∧ highDigits v = 0 := by
  simp only [Form.decode] at h
  split at h
  · obtain ⟨d, hd, rfl⟩ := map_eq_ok h
    exact ⟨d, rfl, writeForm_of_writeSlot hd, ‹_›⟩
  · cases h

theorem exists_of_decode_readRead_ok {mk : ReadOperand → ReadOperand → Instr}
    (h : (Form.readRead mk).decode v p1 p2 p3 = .ok i) :
    ∃ a b, i = mk a b ∧ ReadForm (digit v 2) p1 a ∧ ReadForm (digit v 3) p2 b ∧ digit v 4 = 0 ∧ highDigits v = 0 := by
  simp only [Form.decode] at h
  split at h
  · split at h <;> cases h
    exact ⟨_, _, rfl, readForm_of_readSlot ‹_›, readForm_of_readSlot ‹_›, ‹_›⟩
  · cases h

theorem exists_of_decode_readReadWrite_ok {mk : ReadOperand → ReadOperand → WriteOperand → Instr}
    (h : (Form.readReadWrite mk).decode v p1 p2 p3 = .ok i) :
    ∃ a b d, i = mk a b d ∧ ReadForm (digit v 2) p1 a ∧ ReadForm (digit v 3) p2 b ∧ WriteForm (digit v 4) p3 d ∧
      highDigits v = 0 := by
  simp only [Form.decode] at h
  split at h
  · split at h
    · obtain ⟨d, hd, rfl⟩ := map_eq_ok h
      exact ⟨_, _, d, rfl, readForm_of_readSlot ‹_›, readForm_of_readSlot ‹_›, writeForm_of_writeSlot hd, ‹_›⟩
    · cases h
  · cases h

/-- What a format decodes begins with its own encoding: the operands give the mode digits back, and the digits with the
opcode give the word back. -/
theorem encode_prefix_of_formDecode {f : Form} (hf : EncodesAs (v % 100) f) (h : f.decode v p1 p2 p3 = .ok i) :
    encode i <+: [(v : Int), p1, p2, p3] := by
  have hword := wordOf_digits v
  cases f with
  | none j =>
    obtain ⟨rfl, h1, h2, h3, hhigh⟩ := eq_of_decode_none_ok h
    rw [h1, h2, h3, hhigh] at hword
    rw [show encode i = _ from hf, hword]
    exact ⟨[p1, p2, p3], rfl⟩
  | read mk =>
    obtain ⟨a, rfl, ha, h2, h3, hhigh⟩ := exists_of_decode_read_ok h
    obtain ⟨h1, rfl⟩ := readForm_iff.1 ha
    rw [h1, h2, h3, hhigh] at hword
    rw [hf a, hword]
    exact ⟨[p2, p3], rfl⟩
  | write mk =>
    obtain ⟨d, rfl, hd, h2, h3, hhigh⟩ := exists_of_decode_write_ok h
    obtain ⟨h1, rfl⟩ := writeForm_iff.1 hd
    rw [h1, h2, h3, hhigh] at hword
    rw [hf d, hword]
    exact ⟨[p2, p3], rfl⟩
  | readRead mk =>
    obtain ⟨a, b, rfl, ha, hb, h3, hhigh⟩ := exists_of_decode_readRead_ok h
    obtain ⟨h1, rfl⟩ := readForm_iff.1 ha
    obtain ⟨h2, rfl⟩ := readForm_iff.1 hb
    rw [h1, h2, h3, hhigh] at hword
    rw [hf a b, hword]
    exact ⟨[p3], rfl⟩
  | readReadWrite mk =>
    obtain ⟨a, b, d, rfl, ha, hb, hd, hhigh⟩ := exists_of_decode_readReadWrite_ok h
    obtain ⟨h1, rfl⟩ := readForm_iff.1 ha
    obtain ⟨h2, rfl⟩ := readForm_iff.1 hb
    obtain ⟨h3, rfl⟩ := writeForm_iff.1 hd
    rw [h1, h2, h3, hhigh] at hword
    rw [hf a b d, hword]

end formDecode

theorem encode_prefix_of_decode {w p1 p2 p3 : Cell} {i : Instr} (h : decode w p1 p2 p3 = .ok i) :
    encode i <+: [w, p1, p2, p3] := by
  obtain ⟨v, f, rfl, hform, hdec⟩ := exists_form_of_decode_ok h
  exact encode_prefix_of_formDecode (encodesAs_of_formOf hform) hdec

theorem length_encode (i : Instr) : (encode i).length = i.length := Nat.add_comm _ _

/-- Settles O2 (R71, R81): an encoding the cells begin with is their first `i.length`. -/
theorem whatDecodesToAnInstructionIsItsEncoding : Obligations.WhatDecodesToAnInstructionIsItsEncoding := by
  intro w p1 p2 p3 i h
  have heq := List.prefix_iff_eq_take.1 (encode_prefix_of_decode h)
  rwa [length_encode] at heq

/-! ### Illegal opcodes (R69) -/

theorem formDecode_ne_illegalOpcode (f : Form) (v : Nat) (p1 p2 p3 : Cell) :
    f.decode v p1 p2 p3 ≠ .error .illegalOpcode := by
  have hwrite : ∀ m p (mk : WriteOperand → Instr), (writeSlot m p).map mk ≠ .error .illegalOpcode := fun m p mk => by
    match m with
    | 0 | 1 | 2 | _ + 3 => simp [writeSlot, Except.map]
  cases f with
  | none | read | readRead => simp only [Form.decode]; repeat' split <;> simp
  | write mk => simp only [Form.decode]; split; exacts [hwrite _ _ _, by simp]
  | readReadWrite mk =>
    simp only [Form.decode]
    split
    · split
      exacts [hwrite _ _ _, by simp]
    · simp

theorem decode_illegalOpcode_iff (w p1 p2 p3 : Cell) :
    decode w p1 p2 p3 = .error .illegalOpcode ↔ (w < 0 ∨ w.toNat % 100 ∉ opcodes) := by
  unfold decode
  by_cases hw : w < 0
  · simp [hw]
  · rw [if_neg hw]
    cases hform : formOf (w.toNat % 100) with
    | none =>
      have hnot : w.toNat % 100 ∉ opcodes := fun hmem => by
        obtain ⟨f, hf, -⟩ := exists_formOf hmem
        rw [hform] at hf
        cases hf
      simp [hnot]
    | some f =>
      have hmem := mem_opcodes_of_formOf hform
      simp only [formDecode_ne_illegalOpcode, hw, hmem, not_true, or_false]

/-- Settles O3 (R69): of the decoder's tests only the sign and the opcode table answer ILLEGAL_OPCODE. -/
theorem illegalOpcodeExactlyOnNegativeOrUnlistedWords : Obligations.IllegalOpcodeExactlyOnNegativeOrUnlistedWords :=
  ⟨decode_illegalOpcode_iff, fun w hw => illegal_of_decode fun p1 p2 p3 => (decode_illegalOpcode_iff w p1 p2 p3).2 hw⟩

/-! ### Illegal modes (R70) -/

theorem legalModes_iff {n w : Nat} :
    LegalModes n w ↔ LegalMode n w 1 ∧ LegalMode n w 2 ∧ LegalMode n w 3 ∧ highDigits w = 0 :=
  ⟨fun ⟨h1, h2, h3, hhigh⟩ => ⟨h1, h2, h3, hhigh⟩, fun ⟨h1, h2, h3, hhigh⟩ => ⟨h1, h2, h3, hhigh⟩⟩

theorem not_legalMode_of_badModeDigit {w k : Nat} (h : BadModeDigit w k) : ¬ LegalMode (arityOf (w % 100)) w k := by
  unfold BadModeDigit at h
  unfold LegalMode
  split at h
  · rw [if_pos ‹_›]; omega
  · rwa [if_neg ‹_›]

theorem hasIllegalMode_iff {w : Nat} : HasIllegalMode w ↔ ¬ LegalModes (arityOf (w % 100)) w := by
  constructor
  · rintro (⟨k, hk, hbad⟩ | hhigh) ⟨h1, h2, h3, hlow⟩
    · have hnot := not_legalMode_of_badModeDigit hbad
      simp only [List.mem_cons, List.not_mem_nil, or_false] at hk
      rcases hk with rfl | rfl | rfl
      exacts [hnot h1, hnot h2, hnot h3]
    · exact hhigh hlow
  · intro h
    by_contra hnot
    exact h (legalModes_of_not_hasIllegalMode hnot)

section
variable {f : Form} {w : Nat}

/-- A format rejects every word whose modes are not legal for its slots, and the mode checks come first (R73). -/
theorem formDecode_illegalMode (h : ¬ LegalModes (slotCount f) w) (p1 p2 p3 : Cell) :
    f.decode w p1 p2 p3 = .error .illegalMode := by
  simp only [legalModes_iff, not_and_or] at h
  cases f with
  | none i => exact decode_none_illegalMode i (by simpa [slotCount, LegalMode] using h)
  | read mk => exact decode_read_illegalMode mk (by simpa [slotCount, LegalMode] using h)
  | write mk => exact decode_write_illegalMode mk (by simpa [slotCount, LegalMode] using h)
  | readRead mk => exact decode_readRead_illegalMode mk (by simpa [slotCount, LegalMode] using h)
  | readReadWrite mk => exact decode_readReadWrite_illegalMode mk (by simpa [slotCount, LegalMode] using h) p1 p2 p3

theorem writeSlot_of_le_two {m : Nat} (h : m ≤ 2) (p : Cell) :
    (∃ d, writeSlot m p = .ok d) ∨ writeSlot m p = .error .immediateWrite := by
  match m, h with
  | 0, _ | 2, _ => exact .inl ⟨_, rfl⟩
  | 1, _ => exact .inr rfl

theorem map_writeSlot_of_le_two {m : Nat} (h : m ≤ 2) (p : Cell) (mk : WriteOperand → Instr) :
    (∃ i, (writeSlot m p).map mk = .ok i) ∨ (writeSlot m p).map mk = .error .immediateWrite := by
  rcases writeSlot_of_le_two h p with ⟨d, hd⟩ | hd
  · exact .inl ⟨mk d, by rw [hd]; rfl⟩
  · exact .inr (by rw [hd]; rfl)

/-- A word with legal modes is an instruction of the format, but for Immediate mode on its write slot. -/
theorem formDecode_of_legalModes (h : LegalModes (slotCount f) w) (p1 p2 p3 : Cell) :
    (∃ i, f.decode w p1 p2 p3 = .ok i) ∨ f.decode w p1 p2 p3 = .error .immediateWrite := by
  obtain ⟨hslot1, hslot2, hslot3, hhigh⟩ := h
  cases f with
  | none i => exact .inl ⟨i, decode_none_ok i hslot1 hslot2 hslot3 hhigh⟩
  | read mk =>
    obtain ⟨a, ha⟩ := exists_readSlot (m := digit w 2) hslot1 p1
    exact .inl ⟨mk a, decode_read_ok hslot2 hslot3 hhigh mk (readForm_of_readSlot ha)⟩
  | write mk =>
    have hchecks : digit w 3 = 0 ∧ digit w 4 = 0 ∧ highDigits w = 0 := ⟨hslot2, hslot3, hhigh⟩
    simp only [Form.decode, if_pos hchecks]
    exact map_writeSlot_of_le_two hslot1 p1 mk
  | readRead mk =>
    obtain ⟨a, ha⟩ := exists_readSlot (m := digit w 2) hslot1 p1
    obtain ⟨b, hb⟩ := exists_readSlot (m := digit w 3) hslot2 p2
    exact .inl ⟨mk a b, decode_readRead_ok mk (readForm_of_readSlot ha) (readForm_of_readSlot hb) hslot3 hhigh⟩
  | readReadWrite mk =>
    obtain ⟨a, ha⟩ := exists_readSlot (m := digit w 2) hslot1 p1
    obtain ⟨b, hb⟩ := exists_readSlot (m := digit w 3) hslot2 p2
    simp only [Form.decode, if_pos hhigh, ha, hb]
    exact map_writeSlot_of_le_two hslot3 p3 (mk a b)

theorem formDecode_illegalMode_iff (p1 p2 p3 : Cell) :
    f.decode w p1 p2 p3 = .error .illegalMode ↔ ¬ LegalModes (slotCount f) w := by
  refine ⟨fun h hlegal => ?_, fun h => formDecode_illegalMode h p1 p2 p3⟩
  rcases formDecode_of_legalModes hlegal p1 p2 p3 with ⟨i, hi⟩ | hi <;> rw [h] at hi <;> cases hi

/-- The words a format accepts: legal modes, and no Immediate mode on the write slot. -/
theorem formDecode_ok_iff (p1 p2 p3 : Cell) :
    (∃ i, f.decode w p1 p2 p3 = .ok i) ↔
      LegalModes (slotCount f) w ∧ ¬ ∃ k, writeSlotNumber f = some k ∧ digit w (k + 1) = 1 := by
  by_cases hlegal : LegalModes (slotCount f) w
  · rw [← formDecode_eq_immediateWrite_iff hlegal p1 p2 p3]
    rcases formDecode_of_legalModes hlegal p1 p2 p3 with ⟨i, hi⟩ | hi <;> simp [hi, hlegal]
  · simp [formDecode_illegalMode hlegal, hlegal]

end

/-- Settles O4 (R70): a listed opcode's format answers ILLEGAL_MODE exactly when a mode is not legal for its slots. -/
theorem illegalModeExactlyOnBadModeDigits : Obligations.IllegalModeExactlyOnBadModeDigits := by
  intro w hopc
  obtain ⟨f, hform, hcount, -⟩ := exists_formOf hopc
  have hiff : ∀ p1 p2 p3 : Cell, decode (w : Int) p1 p2 p3 = .error .illegalMode ↔ HasIllegalMode w :=
    fun p1 p2 p3 => by
      rw [decode_natCast hform, hasIllegalMode_iff, ← hcount]
      exact formDecode_illegalMode_iff p1 p2 p3
  exact ⟨hiff, fun hbad => illegal_of_decode fun p1 p2 p3 => (hiff p1 p2 p3).2 hbad⟩

/-! ### The table of legal words (R80) -/

/-- The row of R80 for a format: its opcode with each digit its slots allow. -/
def rowOf (code : Nat) : Form → List Nat
  | .none _ => wordsOfRow code [0] [0] [0]
  | .read _ => wordsOfRow code [0, 1, 2] [0] [0]
  | .write _ => wordsOfRow code [0, 2] [0] [0]
  | .readRead _ => wordsOfRow code [0, 1, 2] [0, 1, 2] [0]
  | .readReadWrite _ => wordsOfRow code [0, 1, 2] [0, 1, 2] [0, 2]

theorem mem_wordsOfRow {code v : Nat} {m1 m2 m3 : List Nat} :
    v ∈ wordsOfRow code m1 m2 m3 ↔ ∃ c ∈ m3, ∃ b ∈ m2, ∃ a ∈ m1, wordNat 0 c b a code = v := by
  simp [wordsOfRow, wordNat]

/-- A word stands in a row of decimal digits exactly when its digits stand in the row's columns. -/
theorem mem_wordsOfRow_iff {code v : Nat} {m1 m2 m3 : List Nat} (hcode : code < 100) (h1 : ∀ a ∈ m1, a < 10)
    (h2 : ∀ b ∈ m2, b < 10) (h3 : ∀ c ∈ m3, c < 10) :
    v ∈ wordsOfRow code m1 m2 m3 ↔
      v % 100 = code ∧ digit v 2 ∈ m1 ∧ digit v 3 ∈ m2 ∧ digit v 4 ∈ m3 ∧ highDigits v = 0 := by
  rw [mem_wordsOfRow]
  constructor
  · rintro ⟨c, hc, b, hb, a, ha, rfl⟩
    obtain ⟨d2, d3, d4, dhigh⟩ := digits_wordNat (hi := 0) hcode (h1 a ha) (h2 b hb) (h3 c hc)
    rw [d2, d3, d4]
    exact ⟨wordNat_mod hcode, ha, hb, hc, dhigh⟩
  · rintro ⟨rfl, ha, hb, hc, hhigh⟩
    have hword := wordNat_digits v
    rw [hhigh] at hword
    exact ⟨_, hc, _, hb, _, ha, hword⟩

/-- A format accepts exactly the words of its row. -/
theorem formDecode_ok_iff_mem_rowOf {f : Form} (v : Nat) (p1 p2 p3 : Cell) :
    (∃ i, f.decode v p1 p2 p3 = .ok i) ↔ v ∈ rowOf (v % 100) f := by
  have hcode : v % 100 < 100 := Nat.mod_lt _ (by decide)
  rw [formDecode_ok_iff, legalModes_iff]
  cases f with
  | none =>
    rw [rowOf, mem_wordsOfRow_iff hcode (by decide) (by decide) (by decide)]
    simp [slotCount, writeSlotNumber, LegalMode]
  | read | write | readRead | readReadWrite =>
    rw [rowOf, mem_wordsOfRow_iff hcode (by decide) (by decide) (by decide)]
    simp [slotCount, writeSlotNumber, LegalMode]
    omega

theorem mem_rowOf_mod {code v : Nat} {f : Form} (hcode : code < 100) (h : v ∈ rowOf code f) : v % 100 = code := by
  cases f <;> exact ((mem_wordsOfRow_iff hcode (by decide) (by decide) (by decide)).1 h).1

/-- The table of R80 has one row for each listed opcode. -/
theorem mem_legalWords_iff {v : Nat} : v ∈ legalWords ↔ ∃ f, formOf (v % 100) = some f ∧ v ∈ rowOf (v % 100) f := by
  have hrows : legalWords = opcodes.flatMap fun code => ((formOf code).map (rowOf code)).getD [] := by decide
  rw [hrows, List.mem_flatMap]
  constructor
  · rintro ⟨code, hcode, hv⟩
    obtain ⟨f, hform, -⟩ := exists_formOf hcode
    rw [hform] at hv
    have hlt : code < 100 := (by decide : ∀ c ∈ opcodes, c < 100) code hcode
    obtain rfl := mem_rowOf_mod hlt hv
    exact ⟨f, hform, hv⟩
  · rintro ⟨f, hform, hv⟩
    exact ⟨v % 100, mem_opcodes_of_formOf hform, by rw [hform]; exact hv⟩

/-- Settles O6 (R80): a word decodes exactly when its opcode is listed and it stands in the row of the opcode's format. -/
theorem exactlyTheNinetyNineTableWordsDecode : Obligations.ExactlyTheNinetyNineTableWordsDecode := by
  refine ⟨by decide, by decide, fun w p1 p2 p3 => ⟨?_, ?_⟩⟩
  · rintro ⟨i, hi⟩
    obtain ⟨v, f, rfl, hform, hdec⟩ := exists_form_of_decode_ok hi
    exact ⟨v, mem_legalWords_iff.2 ⟨f, hform, (formDecode_ok_iff_mem_rowOf v p1 p2 p3).1 ⟨i, hdec⟩⟩, rfl⟩
  · rintro ⟨v, hv, rfl⟩
    obtain ⟨f, hform, hrow⟩ := mem_legalWords_iff.1 hv
    rw [decode_natCast hform]
    exact (formDecode_ok_iff_mem_rowOf v p1 p2 p3).2 hrow

/-- Settles O7 (R63, R80): the decoder's answers on ten fixed words, one for each opcode. -/
theorem wordsWrittenFromTheTableDecode : Obligations.WordsWrittenFromTheTableDecode :=
  ⟨rfl, rfl, rfl, rfl, rfl, rfl, rfl, rfl, rfl, rfl⟩

end Sys2Proof.Proofs
end

section
/-! The host interface (60_exceptions.md R208 to R212): what each transaction answers, for legal and illegal arguments,
on a terminal machine and while running. -/

open Sys2Proof Sys2Proof.Machine Sys2Proof.Claims

namespace Sys2Proof.Proofs

/-! ### One transaction between RUNs (R211, R212) -/

/-- Settles O36 (R212): the busy bit is looked at before the transaction. -/
theorem noTransactionWhileRunning : Obligations.NoTransactionWhileRunning := fun _ _ hrun => if_pos hrun

section idle
variable {s : State} (hidle : s.running = false)
include hidle

theorem transact_load_of_illegal {p : List Cell} (hp : ¬ LegalProgram s.cfg p) :
    transact (.load p) s = .refused .illegalProgram := by
  rw [transact, if_neg (by simp [hidle])]
  exact if_neg hp

theorem transact_inPush_of_inCell {v : Cell} (hv : s.cfg.InCell v) :
    transact (.inPush v) s = .next (pushInput v s, .nothing) := by
  rw [transact, if_neg (by simp [hidle])]
  exact if_pos hv

theorem transact_inPush_of_not_inCell {v : Cell} (hv : ¬ s.cfg.InCell v) :
    transact (.inPush v) s = .refused .illegalValue := by
  rw [transact, if_neg (by simp [hidle])]
  exact if_neg hv

theorem transact_inspect_of_inAddr {a : Nat} (ha : s.cfg.InAddr a) :
    transact (.inspect a) s = .next (s, .cell (memRead s a)) := by
  rw [transact, if_neg (by simp [hidle])]
  exact if_pos ha

theorem transact_inspect_of_not_inAddr {a : Nat} (ha : ¬ s.cfg.InAddr a) :
    transact (.inspect a) s = .refused .illegalAddress := by
  rw [transact, if_neg (by simp [hidle])]
  exact if_neg ha

theorem transact_outPop : transact .outPop s = .next (popOutput s) := by
  rw [transact, if_neg (by simp [hidle])]

theorem transact_readStatus : transact .readStatus s = .next (s, .statusAndCause s.status s.cause) := by
  rw [transact, if_neg (by simp [hidle])]

theorem transact_inspectRegs : transact .inspectRegs s = .next (s, .regs s.ip s.rb s.ext) := by
  rw [transact, if_neg (by simp [hidle])]

theorem transact_outPop_of_nil (hq : s.outQ = []) : transact .outPop s = .next (s, .popped none) := by
  rw [transact_outPop hidle, popOutput, hq]

theorem transact_outPop_of_cons {v : Cell} {rest : List Cell} (hq : s.outQ = v :: rest) :
    transact .outPop s = .next ({ s with outQ := rest }, .popped (some v)) := by
  rw [transact_outPop hidle, popOutput, hq]

end idle

/-- Settles O37 (R211): the effect and the reply of each transaction at a legal argument. -/
theorem transactionsDoWhatTheTableSays : Obligations.TransactionsDoWhatTheTableSays := fun _ hidle =>
  ⟨fun _ => transact_inPush_of_inCell hidle, transact_outPop_of_nil hidle, fun _ _ => transact_outPop_of_cons hidle,
    transact_readStatus hidle, fun _ => transact_inspect_of_inAddr hidle, transact_inspectRegs hidle⟩

/-- Settles O38 (R241, U16, R211): a program too long, or with a value that is no cell value, is not a legal one. -/
theorem illegalHostArgumentsAreRefused : Obligations.IllegalHostArgumentsAreRefused := by
  refine fun s hidle => ⟨fun p hp => transact_load_of_illegal hidle ?_, fun _ => transact_inPush_of_not_inCell hidle,
    fun _ => transact_inspect_of_not_inAddr hidle⟩
  rintro ⟨hlen, hcells⟩
  rcases hp with hlong | ⟨x, hx, hout⟩
  · exact absurd hlen (not_le.2 hlong)
  · exact hout (hcells x hx)

/-! ### RUN on a terminal VM and on the empty program (R209, R241) -/

/-- Settles O35 (R209): RUN tests for a terminal status first, the core's transition there only clears `running`, and
the host's requests do not look at the status. -/
theorem runOnATerminalVmIsANoOp : Obligations.RunOnATerminalVmIsANoOp := by
  refine fun s hidle hterm => ⟨fun fuel => transact_run_of_terminal fuel hidle hterm, ?_,
    fun _ => transact_inspect_of_inAddr hidle, fun _ _ => transact_outPop_of_cons hidle⟩
  have hnot : s.status ≠ .runnable := by rcases hterm with h | h <;> simp [h]
  rw [step_of_not_runnable hnot, leaveRun_eq_self s hidle]

theorem step_of_ext_le {s : State} (hrun : s.status = .runnable) (hext : s.ext ≤ s.ip) :
    step s = .next (raiseError .runaway s) := by
  rw [step_of_runnable hrun, fetchDecodeExecute, if_neg hext.not_gt]

/-- Settles O40 (R241, D22): the extent of the empty program is 0, so the first step of the RUN is beyond it. -/
theorem theEmptyProgramRunsAway : Obligations.TheEmptyProgramRunsAway := by
  refine fun s hidle => ⟨State.load s.cfg [], transact_load_of_legal hidle ⟨Nat.zero_le _, by simp⟩, rfl,
    fun fuel hfuel => ?_⟩
  obtain ⟨k, rfl⟩ := Nat.exists_eq_add_of_le' hfuel
  rw [transact_run_of_not_terminal _ rfl (by simp),
    runLoop_succ_of_step (t := raiseError .runaway { State.load s.cfg [] with status := .runnable, running := true })
      rfl (step_of_ext_le rfl le_rfl), runLoop_of_not_runnable (by simp)]
  rfl

end Sys2Proof.Proofs
end

section
/-! The invariant (10_state.md R24 to R32): the operations that keep it, that what is fetched is well-formed, and that
every step and every host transaction keep it. -/

open Sys2Proof Sys2Proof.Machine Sys2Proof.Claims

namespace Sys2Proof.Proofs

/-! ### Reset (R240) -/

/-- Settles O30 (R240, R241): reset is the load of the empty program, a legal program of the default machine. -/
theorem resetIsALegalFreshState : Obligations.ResetIsALegalFreshState := by
  have hlegal : Config.default.Legal := ⟨by decide, by decide, by decide⟩
  have hprog : LegalProgram Config.default [] := ⟨Nat.zero_le _, by simp⟩
  exact ⟨load_inv hlegal hprog, rfl, rfl, rfl, rfl, rfl, rfl, rfl, rfl, memRead_load Config.default []⟩

/-! ### Decoded instructions (R60, R65) -/

theorem wf_iff {c : Config} {i : Instr} : i.wf c = true ↔ ∀ x ∈ encode i, c.InCell x := by
  simp [Instr.wf, Instr.wordFits, Instr.paramsFit, encode]

/-- The fetched cells are cells of memory, and the decoded instruction is spelled by them. -/
theorem wf_of_decodeAt {s : State} (hm : s.MemoryOk) {i : Instr} (h : decodeAt s = .ok i) : i.wf s.cfg = true := by
  rw [wf_iff]
  intro x hx
  have hmem : x ∈ fetchCells s := (encode_prefix_of_decode h).subset hx
  simp only [fetchCells, List.mem_cons, List.not_mem_nil, or_false] at hmem
  rcases hmem with rfl | rfl | rfl | rfl <;> exact memRead_inCell hm _

/-- Settles O34 (R60, R65): every cell of a legal state is a cell value, the four fetched ones among them. -/
theorem decodedInstructionsAreWellFormed : Obligations.DecodedInstructionsAreWellFormed := by
  rintro s i ⟨-, hm, -, -⟩ h
  exact wf_of_decodeAt hm h

theorem raw_inCell_of_isJump {c : Config} {i : Instr} {target : ReadOperand} (hi : IsJump i target)
    (h : i.wf c = true) : c.InCell target.raw := by
  obtain ⟨cond, rfl | rfl⟩ := hi <;> exact wf_iff.1 h _ (by simp [encode, Instr.rawParams])

/-! ### The operations keep the invariant -/

/-- Below the extent there is room in ip for an instruction's length: the extent is at most 2^(P_W-1), and P_W at least
8 (R5, R24). -/
theorem ip_add_four_lt {s : State} (h : s.Inv) (hip : s.ip < s.ext) : s.ip + 4 < 2 ^ s.cfg.width := by
  obtain ⟨⟨hwidth, -, hlimit⟩, ⟨-, -, hext⟩, -, -⟩ := h
  have hsplit : 2 ^ s.cfg.width = 2 ^ (s.cfg.width - 1) * 2 := by
    rw [← pow_succ]
    congr 1
    omega
  have hlarge : 2 ^ 7 ≤ 2 ^ (s.cfg.width - 1) := Nat.pow_le_pow_right (by decide) (by omega)
  omega

/-- A cell value that is no negative number fits in ip. -/
theorem toNat_lt_of_inCell {c : Config} {x : Cell} (h : c.InCell x) : x.toNat < 2 ^ c.width := by
  have hmono : 2 ^ (c.width - 1) ≤ 2 ^ c.width := Nat.pow_le_pow_right (by decide) (by omega)
  have hle : x ≤ 2 ^ (c.width - 1) - 1 := h.2
  have hcast : ((2 ^ (c.width - 1) : Nat) : Int) = 2 ^ (c.width - 1) := by push_cast; rfl
  have hpos : 0 < 2 ^ (c.width - 1) := Nat.two_pow_pos _
  simp only [Cell] at *
  omega

section operations
variable {s : State} (h : s.Inv)
include h

theorem cause_eq_none_of_inv (hs : s.status ≠ .error) : s.cause = .none := by
  obtain ⟨-, -, ⟨-, -, hcause⟩, -⟩ := h
  by_contra hne
  exact hs (hcause.2 hne)

theorem raiseError_inv {c : Cause} (hc : c ≠ .none) : (raiseError c s).Inv := by
  obtain ⟨hcfg, hm, ⟨hip, hrb, -⟩, hq⟩ := h
  exact ⟨hcfg, hm, ⟨hip, hrb, by simp [hc]⟩, hq⟩

/-- A status other than Error may replace another one: no cause is recorded in either. -/
theorem setStatus_inv {st : Status} (hs : s.status ≠ .error) (hst : st ≠ .error) (running : Bool) :
    State.Inv { s with status := st, running := running } := by
  have hcause := cause_eq_none_of_inv h hs
  obtain ⟨hcfg, hm, ⟨hip, hrb, -⟩, hq⟩ := h
  exact ⟨hcfg, hm, ⟨hip, hrb, by simp [hst, hcause]⟩, hq⟩

theorem setIp_inv {t : Nat} (ht : t < 2 ^ s.cfg.width) : (setIp t s).Inv := by
  obtain ⟨hcfg, hm, ⟨-, hrb, hcause⟩, hq⟩ := h
  exact ⟨hcfg, hm, ⟨ht, hrb, hcause⟩, hq⟩

theorem advance_inv {len : Nat} (dst : Option Nat) (hroom : s.ip + len < 2 ^ s.cfg.width) : (advance len dst s).Inv :=
  setIp_inv h ((nextIp_bounds s len dst).2.trans_lt hroom)

theorem memWrite_inv {a : Nat} {v : Cell} (ha : a < s.cfg.memLimit) (hv : s.cfg.InCell v) : (memWrite a v s).Inv := by
  obtain ⟨hcfg, hm, hr, hq⟩ := h
  exact ⟨hcfg, memWrite_memoryOk hm ha hv, hr, hq⟩

theorem setRb_inv {x : Cell} (hx : s.cfg.InCell x) : (setRb x s).Inv := by
  obtain ⟨hcfg, hm, ⟨hip, -, hcause⟩, hq⟩ := h
  exact ⟨hcfg, hm, ⟨hip, hx, hcause⟩, hq⟩

theorem setQueues_inv {ins outs : List Cell} (hins : ∀ v ∈ ins, s.cfg.InCell v) (houts : ∀ v ∈ outs, s.cfg.InCell v) :
    State.Inv { s with inQ := ins, outQ := outs } := by
  obtain ⟨hcfg, hm, hr, -⟩ := h
  exact ⟨hcfg, hm, hr, hins, houts⟩

theorem inQ_inCell_of_inv : ∀ v ∈ s.inQ, s.cfg.InCell v := by
  obtain ⟨-, -, -, hins, -⟩ := h
  exact hins

theorem outQ_inCell_of_inv : ∀ v ∈ s.outQ, s.cfg.InCell v := by
  obtain ⟨-, -, -, -, houts⟩ := h
  exact houts

theorem setInQ_inv {rest : List Cell} (hrest : ∀ v ∈ rest, s.cfg.InCell v) : (setInQ rest s).Inv :=
  setQueues_inv h hrest (outQ_inCell_of_inv h)

theorem pushInput_inv {v : Cell} (hv : s.cfg.InCell v) : (pushInput v s).Inv := by
  refine setInQ_inv h fun x hx => ?_
  rcases List.mem_append.1 hx with hx | hx
  · exact inQ_inCell_of_inv h x hx
  · rwa [List.mem_singleton.1 hx]

theorem outPush_inv {v : Cell} (hv : s.cfg.InCell v) : (outPush v s).Inv := by
  refine setQueues_inv h (inQ_inCell_of_inv h) fun x hx => ?_
  rcases List.mem_append.1 hx with hx | hx
  · exact outQ_inCell_of_inv h x hx
  · rwa [List.mem_singleton.1 hx]

theorem popOutput_inv : (popOutput s).1.Inv := by
  rw [popOutput_fst_eq]
  exact setQueues_inv h (inQ_inCell_of_inv h) fun x hx => outQ_inCell_of_inv h x (List.mem_of_mem_tail hx)

theorem leaveRun_inv : (leaveRun s).Inv := by
  obtain ⟨hcfg, hm, hr, hq⟩ := h
  exact ⟨hcfg, hm, hr, hq⟩

end operations

/-! ### Steps and transactions keep the invariant -/

/-- A well-formed instruction keeps the invariant: it is a chain of operations that do, on values from cells, queues and
the ALU. -/
theorem execCase_inv {i : Instr} {s t : State} (h : s.Inv) (hrun : s.status = .runnable) (hip : s.ip < s.ext)
    (hwf : i.wf s.cfg = true) (hx : ExecCase i s t) : t.Inv := by
  have hroom := ip_add_four_lt h hip
  have hnotError : s.status ≠ .error := by simp [hrun]
  have hroomTwo : s.ip + 2 < 2 ^ s.cfg.width := by omega
  have ⟨hcfg, hm, _, _⟩ := h
  cases hx with
  | raised c hc => exact raiseError_inv h (raiseCase_ne_none hc)
  | stored _ d _ w hw r hr =>
    obtain ⟨-, -, hlimit⟩ := resolveWrite_ok hw
    exact advance_inv (memWrite_inv h hlimit (hr hcfg)) _ hroom
  | suspended => exact setStatus_inv h hnotError (by decide) s.running
  | tookInput d _ w hw x rest hq =>
    obtain ⟨-, -, hlimit⟩ := resolveWrite_ok hw
    have hqueue : ∀ v ∈ x :: rest, s.cfg.InCell v := hq ▸ inQ_inCell_of_inv h
    obtain ⟨hfront, hrest⟩ := List.forall_mem_cons.1 hqueue
    exact advance_inv (setInQ_inv (memWrite_inv h hlimit hfront) hrest) _ hroomTwo
  | output a hi x hx =>
    subst hi
    have hraw := wf_iff.1 hwf a.raw (by simp [encode, Instr.rawParams])
    exact advance_inv (outPush_inv h (resolveRead_inCell hm hraw hx)) _ hroomTwo
  | jumped target hi x hx hn =>
    have hcell := resolveRead_inCell hm (raw_inCell_of_isJump hi hwf) hx
    exact setIp_inv h (toNat_lt_of_inCell hcell)
  | fellThrough => exact advance_inv h _ (by omega)
  | rebased a _ x _ r hr => exact advance_inv (setRb_inv h (alu_ok_inCell hcfg hr)) _ hroomTwo
  | halted =>
    have hnext := setIp_inv h (t := s.ip + 1) (by omega)
    exact setStatus_inv hnext hnotError (by decide) s.running

/-- Settles O32: of the ways a step can go, an executed instruction was decoded from a legal memory, and each of the
others is one operation that keeps the invariant. -/
theorem everyStepKeepsTheInvariant : Obligations.EveryStepKeepsTheInvariant := by
  intro s t h hstep
  cases step_cases hstep with
  | notEnabled => exact leaveRun_inv h
  | runaway => exact raiseError_inv h (by decide)
  | undecodable _ _ e => exact raiseError_inv h (ofDecodeError_ne_none e)
  | executed hrun hip i hdec _ hx => exact execCase_inv h hrun hip (decodedInstructionsAreWellFormed s i h hdec) hx

theorem runLoop_inv {fuel : Nat} {s t : State} {r : Reply} (h : s.Inv) (hrun : runLoop fuel s = .next (t, r)) :
    t.Inv :=
  runLoop_induction (fun s t => s.Inv → t.Inv) (fun _ => id) (fun _ _ _ hst htu hs => htu (hst hs))
    (fun s t hstep hs => everyStepKeepsTheInvariant s t hs hstep) (fun _ => leaveRun_inv) fuel s t r hrun h

/-- Settles O33: RUN is a chain of steps after its entry, LOAD builds a fresh state, and the other transactions put only
legal values into a queue or take one out. -/
theorem everyTransactionKeepsTheInvariant : Obligations.EveryTransactionKeepsTheInvariant := by
  intro x s t r h htrans
  have hidle := transact_idle htrans
  cases x with
  | load p =>
    by_cases hp : LegalProgram s.cfg p
    · rw [transact_load_eq htrans]
      obtain ⟨hcfg, -⟩ := h
      exact load_inv hcfg hp
    · rw [transact_load_of_illegal hidle hp] at htrans
      cases htrans
  | run fuel =>
    by_cases hterm : s.Terminal
    · rw [transact_run_of_terminal fuel hidle hterm] at htrans
      cases htrans
      exact h
    · rw [transact_run_of_not_terminal fuel hidle hterm] at htrans
      exact runLoop_inv (setStatus_inv h (not_or.1 hterm).2 (by decide) true) htrans
  | inPush v =>
    by_cases hv : s.cfg.InCell v
    · rw [transact_inPush_of_inCell hidle hv] at htrans
      cases htrans
      exact pushInput_inv h hv
    · rw [transact_inPush_of_not_inCell hidle hv] at htrans
      cases htrans
  | outPop =>
    rw [transact_outPop hidle] at htrans
    injection htrans with hpop
    have hinv := popOutput_inv h
    rwa [hpop] at hinv
  | readStatus =>
    rw [transact_readStatus hidle] at htrans
    cases htrans
    exact h
  | inspect a =>
    by_cases ha : s.cfg.InAddr a
    · rw [transact_inspect_of_inAddr hidle ha] at htrans
      cases htrans
      exact h
    · rw [transact_inspect_of_not_inAddr hidle ha] at htrans
      cases htrans
  | inspectRegs =>
    rw [transact_inspectRegs hidle] at htrans
    cases htrans
    exact h

end Sys2Proof.Proofs
end

section
/-! Steps (30_encoding.md R74 to R76; 60_exceptions.md R202, R203): the outcomes of a step, the causes it raises, and
what each step leaves unchanged. -/

open Sys2Proof Sys2Proof.Machine Sys2Proof.Claims

namespace Sys2Proof.Proofs

/-! ### The outcomes of a step (R74) -/

theorem step_of_decodeError {s : State} {e : DecodeError} (hrun : s.status = .runnable) (hext : s.ip < s.ext)
    (hdec : decodeAt s = .error e) : step s = .next (raiseError (Cause.ofDecodeError e) s) := by
  rw [step_of_runnable hrun, fetchDecodeExecute, if_pos hext, hdec]

/-- Settles O8 (R74): `decodeAt` is the decoder on the four fetched cells, and its answer decides the step. -/
theorem stepRunsTheInstructionDecodedAtIp : Obligations.StepRunsTheInstructionDecodedAtIp := fun _ hrun hext =>
  ⟨fun _ hdec => step_of_runs ⟨hrun, hext, hdec⟩, step_of_decodeError (e := .illegalOpcode) hrun hext,
    step_of_decodeError (e := .illegalMode) hrun hext, step_of_decodeError (e := .immediateWrite) hrun hext⟩

/-- Settles O9 (R74): the extent is looked at before anything is fetched. -/
theorem stepBeyondTheExtentRaisesRunaway : Obligations.StepBeyondTheExtentRaisesRunaway :=
  fun _ => step_of_ext_le

/-- Settles O10 (R201, R208): with no step enabled the transition is the return of RUN. -/
theorem withNoStepEnabledOnlyRunningIsCleared : Obligations.WithNoStepEnabledOnlyRunningIsCleared :=
  fun _ => step_of_not_runnable

/-- A checked result goes on or raises, so a state results if one results from going on. -/
theorem orRaise_exists {α : Type} {s : State} {r : Except Cause α} {k : α → Host.Outcome State Fault Refusal}
    (hk : ∀ x, ∃ t, k x = .next t) : ∃ t, orRaise s r k = .next t := by
  cases r with
  | ok x => exact hk x
  | error c => exact ⟨_, rfl⟩

theorem storeBinary_exists (f : Cell → Cell → Except Cause Cell) (a b : ReadOperand) (d : WriteOperand) (s : State) :
    ∃ t, storeBinary f a b d s = .next t :=
  orRaise_exists fun _ => orRaise_exists fun _ => orRaise_exists fun _ => orRaise_exists fun _ => ⟨_, rfl⟩

theorem jumpTo_exists (t : Cell) (s : State) : ∃ u, jumpTo t s = .next u := by
  rcases lt_or_ge t 0 with hneg | hnonneg
  · exact ⟨_, jumpTo_of_neg hneg s⟩
  · exact ⟨_, jumpTo_of_nonneg hnonneg s⟩

theorem jumpWhen_exists (taken : Cell → Bool) (cond target : ReadOperand) (s : State) :
    ∃ t, jumpWhen taken cond target s = .next t := by
  refine orRaise_exists fun x => orRaise_exists fun y => ?_
  cases taken x with
  | true => exact jumpTo_exists y s
  | false => exact ⟨_, rfl⟩

theorem execInp_exists (d : WriteOperand) (s : State) : ∃ t, execInp d s = .next t := by
  refine orRaise_exists fun w => ?_
  cases s.inQ with
  | nil => exact ⟨_, rfl⟩
  | cons x rest => exact ⟨_, rfl⟩

theorem exec_exists (i : Instr) (s : State) : ∃ t, exec i s = .next t := by
  cases i with
  | add | mul | lt | eq => exact storeBinary_exists _ _ _ _ s
  | inp d => exact execInp_exists d s
  | out a => exact orRaise_exists fun _ => ⟨_, rfl⟩
  | jt | jf => exact jumpWhen_exists _ _ _ s
  | arb a => exact orRaise_exists fun _ => orRaise_exists fun _ => ⟨_, rfl⟩
  | hlt => exact ⟨_, rfl⟩

/-- Settles O11 (R71, R76): every path of a step, and of every instruction, ends in a state. -/
theorem everyStepAnswersANextState : Obligations.EveryStepAnswersANextState := by
  intro s
  by_cases hrun : s.status = .runnable
  · by_cases hext : s.ip < s.ext
    · cases hdec : decodeAt s with
      | ok i => rw [step_of_runs ⟨hrun, hext, hdec⟩]; exact exec_exists i s
      | error e => exact ⟨_, step_of_decodeError hrun hext hdec⟩
    · exact ⟨_, step_of_ext_le hrun (not_lt.1 hext)⟩
  · exact ⟨_, step_of_not_runnable hrun⟩

/-! ### Errors (R202, R203) -/

/-- Settles O14 (R203, D7): the only operation that ends in Error is raising a cause, and RUN's loop then returns. -/
theorem errorsArePrecise : Obligations.ErrorsArePrecise := by
  intro s t h hs ht
  obtain ⟨c, hc, rfl⟩ := step_error h hs ht
  exact ⟨rfl, hc, fun fuel => runLoop_of_not_runnable (by simp) fuel⟩

/-- The causes an instruction has reason to raise are those of its column of R202. -/
theorem raiseCase_mem_mayRaise {i : Instr} {s : State} {c : Cause} (h : RaiseCase i s c) : c ∈ mayRaise i := by
  cases h with
  | badAddress hi => cases i <;> simp_all [mayRaise]
  | memoryExhausted d hd => cases i <;> simp_all [mayRaise, Instr.writeSlot]
  | badJumpTarget target hi => obtain ⟨cond, rfl | rfl⟩ := hi <;> simp [mayRaise]
  | overflow hi => obtain ⟨a, b, d, rfl | rfl⟩ | ⟨a, rfl⟩ := hi <;> simp [mayRaise]

/-- Where an address of the machine is at or above the capacity, the capacity is below the number of addresses (R45). -/
theorem memLimit_lt_of_inAddr {c : Config} {a : Int} (ha : c.InAddr a) (hl : c.memLimit ≤ a.toNat) :
    c.memLimit < 2 ^ (c.width - 1) := by
  obtain ⟨hnonneg, hmax⟩ := ha
  have hcast : ((2 ^ (c.width - 1) : Nat) : Int) = 2 ^ (c.width - 1) := by push_cast; rfl
  simp only [Config.amax, Config.cmax] at hmax
  omega

/-- Settles O15 (R202): the reasons for raising a cause name the instruction and the parameter each. -/
theorem instructionsRaiseOnlyTheirOwnCauses : Obligations.InstructionsRaiseOnlyTheirOwnCauses := by
  intro i s t h hs ht
  obtain ⟨c, hc, rfl⟩ := execCase_error (exec_cases h) (by simp [hs]) ht
  refine ⟨raiseCase_mem_mayRaise hc, fun hover => ?_, fun hexh => ?_⟩
  · obtain rfl : c = .overflow := hover
    cases hc with
    | overflow _ hf => exact hf
  · obtain rfl : c = .memoryExhausted := hexh
    cases hc with
    | memoryExhausted d _ ha hl => exact memLimit_lt_of_inAddr ha hl

/-! ### What steps leave unchanged -/

/-- Settles O25 (R141, U10): opcode 99 has format F1, and `halt` writes the status and ip. -/
theorem haltSetsHaltedAndKeepsAllButIp : Obligations.HaltSetsHaltedAndKeepsAllButIp :=
  ⟨wordsNone rfl (by decide), fun s => ⟨s.ip + 1, rfl⟩⟩

/-- Settles O26: an instruction writes the one cell its write slot names, or leaves memory and extent alone. -/
theorem instructionsChangeNoCellButTheirDestination : Obligations.InstructionsChangeNoCellButTheirDestination := by
  intro i s t hm h
  rcases execCase_memory (exec_cases h) with hsame | hwrites
  · exact ⟨fun _ _ _ _ b _ => hsame.memRead_eq b, fun _ => ⟨hsame.2, hsame.memRead_eq⟩⟩
  · refine ⟨fun d hd a ha b hb => ?_, fun hnone => ?_⟩
    · by_contra hne
      obtain ⟨d', hd', hb'⟩ := hwrites.writeTarget_eq hm hne
      obtain rfl : d = d' := Option.some.inj (hd.symm.trans hd')
      exact hb (Int.ofNat_inj.1 (hb'.symm.trans ha.symm))
    · obtain ⟨d, w, v, hd, -, -⟩ := hwrites
      rw [hnone] at hd
      cases hd

theorem readsAs_of_resolveRead {s : State} {op : ReadOperand} {x : Cell} (h : resolveRead s op = .ok x) :
    ReadsAs s op x := by
  have hread : ∀ a, readAt s a = .ok x → s.cfg.InAddr a ∧ x = memRead s a.toNat := fun a ha => by
    rcases readAt_cases s a with ⟨hin, hr⟩ | ⟨-, hr⟩ <;> rw [hr] at ha <;> cases ha
    exact ⟨hin, rfl⟩
  cases op with
  | position p => exact hread _ h
  | immediate p => cases h; rfl
  | relative p => exact hread _ h

section frame
variable {i : Instr} {s t : State} (h : ExecCase i s t)
include h

theorem execCase_rb (hne : t.rb ≠ s.rb) : ∃ a, i = .arb a := by
  cases h with
  | rebased a hi => exact ⟨a, hi⟩
  | raised | stored | suspended | tookInput | output | jumped | fellThrough | halted => exact absurd rfl hne

theorem execCase_inQ (hne : t.inQ ≠ s.inQ) : ∃ d v, i = .inp d ∧ s.inQ = v :: t.inQ := by
  cases h with
  | tookInput d hi _ _ x rest hq => exact ⟨d, x, hi, hq⟩
  | raised | stored | suspended | output | jumped | fellThrough | rebased | halted => exact absurd rfl hne

theorem execCase_output (hne : t.outQ ≠ s.outQ) : ∃ a x, i = .out a ∧ ReadsAs s a x ∧ t.outQ = s.outQ ++ [x] := by
  cases h with
  | output a hi x hx => exact ⟨a, x, hi, readsAs_of_resolveRead hx, rfl⟩
  | raised | stored | suspended | tookInput | jumped | fellThrough | rebased | halted => exact absurd rfl hne

theorem execCase_cause (hne : t.cause ≠ s.cause) : t.status = .error := by
  cases h with
  | raised => rfl
  | stored | suspended | tookInput | output | jumped | fellThrough | rebased | halted => exact absurd rfl hne

theorem execCase_running : t.running = s.running := by
  cases h with
  | raised | stored | suspended | tookInput | output | jumped | fellThrough | rebased | halted => rfl

theorem execCase_cfg : t.cfg = s.cfg := by
  cases h with
  | raised | stored | suspended | tookInput | output | jumped | fellThrough | rebased | halted => rfl

end frame

/-- Settles O27 (R25, R26, R30 to R33): each clause is the frame of an executed instruction; a transition that executes
none changes status, cause or `running` alone. -/
theorem stepsChangeRegistersAndQueuesOnlyByTheirInstruction :
    Obligations.StepsChangeRegistersAndQueuesOnlyByTheirInstruction := by
  intro s t h
  cases step_cases h with
  | notEnabled hs =>
    exact ⟨absurd rfl, absurd rfl, absurd rfl, absurd rfl, fun hrun => absurd hrun hs, rfl⟩
  | runaway | undecodable =>
    exact ⟨absurd rfl, absurd rfl, absurd rfl, fun _ => rfl, fun _ => rfl, rfl⟩
  | executed hrun hext i hdec _ hx =>
    refine ⟨fun hne => ?_, fun hne => ?_, fun hne => ?_, execCase_cause hx, fun _ => execCase_running hx,
      execCase_cfg hx⟩
    · obtain ⟨a, rfl⟩ := execCase_rb hx hne
      exact ⟨a, hrun, hext, hdec⟩
    · obtain ⟨d, v, rfl, hq⟩ := execCase_inQ hx hne
      exact ⟨d, v, ⟨hrun, hext, hdec⟩, hq⟩
    · obtain ⟨a, x, rfl, hreads, hout⟩ := execCase_output hx hne
      exact ⟨a, x, ⟨hrun, hext, hdec⟩, hreads, hout⟩

/-! ### The next instruction pointer (R75, R123) -/

theorem length_of_isStore {i : Instr} (h : IsStore i) : i.length = 4 := by
  obtain ⟨a, b, d, rfl | rfl | rfl | rfl⟩ := h <;> rfl

/-- NextIp of an instruction whose write slot resolves to `w`, in the words of the claim. -/
theorem nextIp_of_writeSlot {i : Instr} {s : State} {d : WriteOperand} {w : Nat} (hd : i.writeSlot = some d)
    (hw : resolveWrite s d = .ok w) {len : Nat} :
    nextIp s len (some w) =
      if s.cfg.tightLoop = true ∧ ∃ d', i.writeSlot = some d' ∧ writeTarget s d' = (s.ip : Int) then s.ip
      else s.ip + len := by
  obtain ⟨⟨hnonneg, -⟩, rfl, -⟩ := resolveWrite_ok hw
  have hiff : (∃ d', i.writeSlot = some d' ∧ writeTarget s d' = (s.ip : Int)) ↔ (writeTarget s d).toNat = s.ip := by
    simp only [hd, Option.some.injEq, exists_eq_left']
    omega
  simp only [nextIp_some, hiff]

theorem nextIp_of_no_writeSlot {i : Instr} (hi : i.writeSlot = none) (s : State) (len : Nat) :
    nextIp s len none =
      if s.cfg.tightLoop = true ∧ ∃ d', i.writeSlot = some d' ∧ writeTarget s d' = (s.ip : Int) then s.ip
      else s.ip + len := by
  simp [hi]

/-- Settles O28 (R75, R123): the instructions that complete without a jump end with the advance, by the length of their
format and with the address of their write slot, if they have one. -/
theorem onlyJumpsRedirectControl : Obligations.OnlyJumpsRedirectControl := by
  intro s t i hruns hstep ht hjt hjf
  have hnotJump : ∀ target, ¬ IsJump i target := by
    rintro target ⟨c, hc | hc⟩
    exacts [hjt c target hc, hjf c target hc]
  rw [step_of_runs hruns] at hstep
  cases exec_cases hstep with
  | raised | suspended | halted => cases ht
  | jumped target hi | fellThrough target hi => exact absurd hi (hnotJump target)
  | stored hi d hd w hw r _ => rw [length_of_isStore hi]; exact nextIp_of_writeSlot hd hw
  | tookInput d hi w hw x rest _ => subst hi; exact nextIp_of_writeSlot rfl hw
  | output a hi x hx => subst hi; exact nextIp_of_no_writeSlot rfl s 2
  | rebased a hi x hx r hr => subst hi; exact nextIp_of_no_writeSlot rfl s 2

end Sys2Proof.Proofs
end

section
/-! Runs (41_io.md R113, R115; 44_system.md R142): what queues the core has not reached do to a step, the relative base
along steps, and feeding inputs one at a time or all at once. -/

open Sys2Proof Sys2Proof.Machine Sys2Proof.Claims

namespace Sys2Proof.Proofs

/-! ### Queue values the core does not reach (R31, R32, R110) -/

/-- `s` with further values behind its input queue and earlier ones in front of its output queue. -/
def extendQueues (ins old : List Cell) (s : State) : State :=
  { s with inQ := s.inQ ++ ins, outQ := old ++ s.outQ }

/-- An outcome with its next state, if it has one, sent through `g`. -/
def mapNext (g : State → State) : Host.Outcome State Fault Refusal → Host.Outcome State Fault Refusal
  | .next t => .next (g t)
  | .fault f => .fault f
  | .refused r => .refused r

section extendQueues
variable (ins old : List Cell) (s : State)

theorem resolveRead_extendQueues (op : ReadOperand) : resolveRead (extendQueues ins old s) op = resolveRead s op :=
  resolveRead_congr rfl rfl rfl rfl op

theorem resolveWrite_extendQueues (d : WriteOperand) : resolveWrite (extendQueues ins old s) d = resolveWrite s d :=
  resolveWrite_congr rfl rfl d

theorem decodeAt_extendQueues : decodeAt (extendQueues ins old s) = decodeAt s := decodeAt_congr rfl rfl rfl

/-- Raising an error leaves the queues alone, so a checked result goes on or raises with any queues. -/
theorem orRaise_extendQueues {α : Type} (r : Except Cause α) (k : α → Host.Outcome State Fault Refusal) :
    mapNext (extendQueues ins old) (orRaise s r k) =
      orRaise (extendQueues ins old s) r fun x => mapNext (extendQueues ins old) (k x) := by
  cases r <;> rfl

theorem storeBinary_extendQueues (f : Cell → Cell → Except Cause Cell) (a b : ReadOperand) (d : WriteOperand) :
    storeBinary f a b d (extendQueues ins old s) = mapNext (extendQueues ins old) (storeBinary f a b d s) := by
  simp only [storeBinary, orRaise_extendQueues, resolveRead_extendQueues, resolveWrite_extendQueues]
  rfl

theorem jumpTo_extendQueues (t : Cell) :
    jumpTo t (extendQueues ins old s) = mapNext (extendQueues ins old) (jumpTo t s) := by
  rcases lt_or_ge t 0 with hneg | hnonneg
  · rw [jumpTo_of_neg hneg, jumpTo_of_neg hneg]
    rfl
  · rw [jumpTo_of_nonneg hnonneg, jumpTo_of_nonneg hnonneg]
    rfl

theorem jumpWhen_extendQueues (taken : Cell → Bool) (cond target : ReadOperand) :
    jumpWhen taken cond target (extendQueues ins old s) =
      mapNext (extendQueues ins old) (jumpWhen taken cond target s) := by
  simp only [jumpWhen, orRaise_extendQueues, resolveRead_extendQueues, jumpTo_extendQueues]
  refine congrArg (orRaise _ _) (funext fun x => congrArg (orRaise _ _) (funext fun y => ?_))
  cases taken x <;> rfl

theorem execOut_extendQueues (a : ReadOperand) :
    execOut a (extendQueues ins old s) = mapNext (extendQueues ins old) (execOut a s) := by
  have hout : ∀ x, extendQueues ins old (advance 2 none (outPush x s)) =
      advance 2 none (outPush x (extendQueues ins old s)) := fun x => by
    simp only [extendQueues, advance, outPush, List.append_assoc]
    rfl
  simp only [execOut, orRaise_extendQueues, resolveRead_extendQueues]
  exact congrArg (orRaise _ _) (funext fun x => congrArg Host.Outcome.next (hout x).symm)

theorem execArb_extendQueues (a : ReadOperand) :
    execArb a (extendQueues ins old s) = mapNext (extendQueues ins old) (execArb a s) := by
  simp only [execArb, orRaise_extendQueues, resolveRead_extendQueues]
  rfl

variable {ins old s} {t : State}

/-- IN reads the front of in_q alone; it can tell only an empty queue from one extended at its back. -/
theorem exec_inp_extendQueues {d : WriteOperand} (h : exec (.inp d) s = .next t)
    (hq : t.status = .waitingForInput → ins = []) :
    exec (.inp d) (extendQueues ins old s) = .next (extendQueues ins old t) := by
  cases hw : resolveWrite s d with
  | error c =>
    rw [exec_inp_of_error hw] at h
    cases h
    exact exec_inp_of_error ((resolveWrite_extendQueues ins old s d).trans hw)
  | ok w =>
    have hw' := (resolveWrite_extendQueues ins old s d).trans hw
    cases hfront : s.inQ with
    | nil =>
      rw [exec_inp_of_empty hw hfront] at h
      cases h
      exact exec_inp_of_empty hw' (by simp [extendQueues, hfront, hq rfl])
    | cons v rest =>
      rw [exec_inp_of_cons hw hfront] at h
      cases h
      exact exec_inp_of_cons hw' (by simp [extendQueues, hfront])

/-- An instruction does the same with extended queues, unless it suspends for want of the values pushed. -/
theorem exec_extendQueues {i : Instr} (h : exec i s = .next t) (hq : t.status = .waitingForInput → ins = []) :
    exec i (extendQueues ins old s) = .next (extendQueues ins old t) := by
  have of_commutes : exec i (extendQueues ins old s) = mapNext (extendQueues ins old) (exec i s) →
      exec i (extendQueues ins old s) = .next (extendQueues ins old t) := fun hcomm => by rw [hcomm, h]; rfl
  cases i with
  | add | mul | lt | eq => exact of_commutes (storeBinary_extendQueues ins old s _ _ _ _)
  | inp d => exact exec_inp_extendQueues h hq
  | out a => exact of_commutes (execOut_extendQueues ins old s a)
  | jt | jf => exact of_commutes (jumpWhen_extendQueues ins old s _ _ _)
  | arb a => exact of_commutes (execArb_extendQueues ins old s a)
  | hlt => exact of_commutes rfl

/-- A step does the same with extended queues, unless it suspends for want of the values pushed. -/
theorem step_extendQueues (h : step s = .next t)
    (hq : s.status = .runnable → t.status = .waitingForInput → ins = []) :
    step (extendQueues ins old s) = .next (extendQueues ins old t) := by
  cases step_cases h with
  | notEnabled hs => exact step_of_not_runnable hs
  | runaway hrun hext => exact step_of_ext_le hrun hext
  | undecodable hrun hext e hdec =>
    exact step_of_decodeError hrun hext ((decodeAt_extendQueues ins old s).trans hdec)
  | executed hrun hext i hdec _ _ =>
    rw [step_of_runs ⟨hrun, hext, hdec⟩] at h
    have hruns : Runs (extendQueues ins old s) i := ⟨hrun, hext, (decodeAt_extendQueues ins old s).trans hdec⟩
    rw [step_of_runs hruns]
    exact exec_extendQueues h (hq hrun)

end extendQueues

/-- Settles O45 (R31, R110): a step that does not suspend is the same with values pushed behind in_q. -/
theorem unreadInputDoesNotInfluenceAStep : Obligations.UnreadInputDoesNotInfluenceAStep :=
  fun _ _ vs h _ ht => step_extendQueues (ins := vs) (old := []) h fun _ hwait => absurd hwait ht

/-- Settles O46 (R32): a step is the same with earlier values in front of out_q. -/
theorem earlierOutputDoesNotInfluenceAStep : Obligations.EarlierOutputDoesNotInfluenceAStep := by
  intro s t old h
  have hext := step_extendQueues (ins := []) (old := old) h fun _ _ => rfl
  simpa only [extendQueues, List.append_nil] using hext

/-! ### The relative base (R140, R142) -/

section adjustment
variable {s t : State}

theorem adjustmentOf_of_runs_arb {a : ReadOperand} {x : Cell} (h : Runs s (.arb a)) (hx : resolveRead s a = .ok x) :
    adjustmentOf s = if s.cfg.InCell (s.rb + x) ∨ s.cfg.overflow = .wrap then x else 0 := by
  obtain ⟨hrun, hext, hdec⟩ := h
  simp only [adjustmentOf, if_pos (And.intro hrun hext), hdec, hx]

theorem adjustmentOf_of_badOperand {a : ReadOperand} {c : Cause} (h : Runs s (.arb a))
    (hx : resolveRead s a = .error c) : adjustmentOf s = 0 := by
  obtain ⟨hrun, hext, hdec⟩ := h
  simp only [adjustmentOf, if_pos (And.intro hrun hext), hdec, hx]

theorem adjustmentOf_of_not_runs_arb (h : ∀ a, ¬ Runs s (.arb a)) : adjustmentOf s = 0 := by
  unfold adjustmentOf
  split
  · rename_i henabled
    obtain ⟨hrun, hext⟩ := henabled
    split
    · rename_i a hdec; exact absurd ⟨hrun, hext, hdec⟩ (h a)
    · rfl
  · rfl

theorem step_cfg (h : step s = .next t) : t.cfg = s.cfg := by
  obtain ⟨-, -, -, -, -, hcfg⟩ := stepsChangeRegistersAndQueuesOnlyByTheirInstruction s t h
  exact hcfg

theorem step_rb_eq_of_not_runs_arb (h : step s = .next t) (hnot : ∀ a, ¬ Runs s (.arb a)) : t.rb = s.rb := by
  obtain ⟨hrb, -⟩ := stepsChangeRegistersAndQueuesOnlyByTheirInstruction s t h
  by_contra hne
  obtain ⟨a, ha⟩ := hrb hne
  exact hnot a ha

/-- A step adds its adjustment to rb, exactly or, under Wrap, wrapped (R8, R140). -/
theorem step_rb (h : step s = .next t) :
    t.rb = s.rb + adjustmentOf s ∨ (s.cfg.overflow = .wrap ∧ t.rb = wrap s.cfg (s.rb + adjustmentOf s)) := by
  by_cases harb : ∃ a, Runs s (.arb a)
  · obtain ⟨a, ha⟩ := harb
    rw [step_of_runs ha] at h
    rcases orRaise_next h with ⟨x, hx, h⟩ | ⟨c, hc, rfl⟩
    · rw [adjustmentOf_of_runs_arb ha hx]
      rcases orRaise_next h with ⟨r, hr, h⟩ | ⟨c, hc, rfl⟩
      · cases h
        rcases alu_ok hr with ⟨hin, rfl⟩ | ⟨-, hwrap, rfl⟩
        · exact .inl (by rw [if_pos (.inl hin)]; rfl)
        · exact .inr ⟨hwrap, by rw [if_pos (.inr hwrap)]; rfl⟩
      · obtain ⟨-, hfault, hout⟩ := alu_error hc
        exact .inl (by simp [hout, hfault])
    · rw [adjustmentOf_of_badOperand ha hc]
      exact .inl (add_zero _).symm
  · have hnot := not_exists.1 harb
    rw [adjustmentOf_of_not_runs_arb hnot, step_rb_eq_of_not_runs_arb h hnot]
    exact .inl (add_zero _).symm

/-- From `s` to `t` rb has gained `n`: exactly under Fault, modulo 2^P_W in any case. -/
def GainsRb (s t : State) (n : Int) : Prop :=
  (s.cfg.overflow = .fault → t.rb = s.rb + n) ∧ (2 ^ s.cfg.width : Int) ∣ (t.rb - (s.rb + n))

theorem step_gainsRb (h : step s = .next t) : GainsRb s t (adjustmentOf s) := by
  rcases step_rb h with heq | ⟨hwrap, heq⟩
  · exact ⟨fun _ => heq, by simp [heq]⟩
  · refine ⟨fun hfault => ?_, heq ▸ dvd_wrap_sub _ _⟩
    rw [hwrap] at hfault
    cases hfault

theorem GainsRb.trans {u : State} {m n : Int} (hcfg : u.cfg = s.cfg) (hm : GainsRb s u m) (hn : GainsRb u t n) :
    GainsRb s t (m + n) := by
  obtain ⟨hmExact, hmMod⟩ := hm
  obtain ⟨hnExact, hnMod⟩ := hn
  rw [hcfg] at hnExact hnMod
  refine ⟨fun hfault => ?_, ?_⟩
  · rw [hnExact hfault, hmExact hfault, add_assoc]
  · have hsum : t.rb - (s.rb + (m + n)) = (t.rb - (u.rb + n)) + (u.rb - (s.rb + m)) := by ring
    rw [hsum]
    exact dvd_add hnMod hmMod

end adjustment

theorem adjustmentsAlong_succ {s u : State} (h : step s = .next u) (k : Nat) :
    adjustmentsAlong (k + 1) s = adjustmentOf s + adjustmentsAlong k u := by
  rw [adjustmentsAlong, h]

theorem stepsTo_gainsRb {k : Nat} {s t : State} (h : StepsTo k s t) : GainsRb s t (adjustmentsAlong k s) := by
  induction k generalizing s with
  | zero => cases h; exact ⟨fun _ => (add_zero _).symm, by simp [adjustmentsAlong]⟩
  | succ k ih =>
    obtain ⟨u, hu, hsteps⟩ := h
    rw [adjustmentsAlong_succ hu]
    exact (step_gainsRb hu).trans (step_cfg hu) (ih hsteps)

/-- Settles O43 (R142): each step adds its own adjustment, by induction so do any number of them; a fresh load starts
from rb = 0, and a Relative slot names rb + p. -/
theorem relativeBaseAccumulatesTheAdjustments : Obligations.RelativeBaseAccumulatesTheAdjustments := by
  intro k s t h
  obtain ⟨hexact, hmod⟩ := stepsTo_gainsRb h
  refine ⟨hexact, hmod, fun c p hs hfault q => ?_⟩
  have hrb : t.rb = adjustmentsAlong k s := by
    rw [hexact (by rw [hs]; exact hfault), hs]
    exact zero_add _
  simp only [writeTarget, ReadsAs, hrb, implies_true, and_self]

/-! ### Suspension and resumption (R113) -/

theorem runs_congr {s u : State} {i : Instr} (h : Runs s i) (hrun : u.status = .runnable) (hip : u.ip = s.ip)
    (hm : u.mem = s.mem) (he : u.ext = s.ext) : Runs u i := by
  obtain ⟨-, hext, hdec⟩ := h
  exact ⟨hrun, by rwa [hip, he], (decodeAt_congr hip hm he).trans hdec⟩

theorem writeTarget_congr {s t : State} (h : t.rb = s.rb) (d : WriteOperand) : writeTarget t d = writeTarget s d := by
  cases d <;> simp [writeTarget, h]

/-- What RUN steps from, on a VM that is not terminal (R208). -/
def started (s : State) : State := { s with status := .runnable, running := true }

/-- Settles O41 (R113): suspending has kept ip, memory and rb, so the next RUN decodes the same Input with the same
write slot, and with in_q still empty it suspends again. -/
theorem resumeExecutesTheSameInputAgain : Obligations.ResumeExecutesTheSameInputAgain := by
  intro s t hrun hstep hwait
  obtain ⟨d, w, hruns, hw, hq⟩ := (step_waiting_iff hstep hrun).1 hwait
  rw [step_of_runs hruns, exec_inp_of_empty hw hq] at hstep
  cases hstep
  refine ⟨fun fuel hfuel => ?_, d, hruns, fun v => ⟨?_, rfl, writeTarget_congr rfl d⟩⟩
  · obtain ⟨k, rfl⟩ := Nat.exists_eq_add_of_le' hfuel
    have hagain : step (started (suspend s)) = .next (suspend (started (suspend s))) := by
      rw [step_of_runs (runs_congr (u := started (suspend s)) hruns rfl rfl rfl rfl)]
      exact exec_inp_of_empty ((resolveWrite_congr rfl rfl d).trans hw) hq
    rw [transact_run_of_not_terminal _ rfl (by simp)]
    exact (runLoop_succ_of_step rfl hagain k).trans (runLoop_of_not_runnable (by simp) k)
  · exact step_of_runs (runs_congr (u := enterRun (pushInput v (suspend s))) hruns rfl rfl rfl rfl)

/-! ### RUNs that return (R208) -/

/-- The loop of RUN from `s` returns and leaves `t`. -/
inductive LoopReturns : State → State → Prop where
  | returned {s : State} (h : s.status ≠ .runnable) : LoopReturns s (leaveRun s)
  | stepped {s u t : State} (h : s.status = .runnable) (hstep : step s = .next u) (hu : LoopReturns u t) :
      LoopReturns s t

theorem loopReturns_of_runLoop {fuel : Nat} {s t : State} {st : Status} (h : runLoop fuel s = .next (t, .status st)) :
    LoopReturns s t := by
  induction fuel generalizing s with
  | zero =>
    by_cases hrun : s.status = .runnable
    · rw [runLoop_zero_of_runnable hrun] at h
      cases h
    · rw [runLoop_of_not_runnable hrun] at h
      cases h
      exact .returned hrun
  | succ fuel ih =>
    by_cases hrun : s.status = .runnable
    · obtain ⟨u, hu, h⟩ := runLoop_succ_next hrun h
      exact .stepped hrun hu (ih h)
    · rw [runLoop_of_not_runnable hrun] at h
      cases h
      exact .returned hrun

theorem exists_runLoop_of_loopReturns {s t : State} (h : LoopReturns s t) :
    ∃ fuel st, runLoop fuel s = .next (t, .status st) := by
  induction h with
  | returned hs => exact ⟨0, _, runLoop_of_not_runnable hs 0⟩
  | stepped hs hstep _ ih =>
    obtain ⟨fuel, st, hloop⟩ := ih
    exact ⟨fuel + 1, st, (runLoop_succ_of_step hs hstep fuel).trans hloop⟩

theorem loopReturns_of_not_runnable {s t : State} (h : s.status ≠ .runnable) : LoopReturns s t ↔ t = leaveRun s := by
  constructor
  · intro hret
    cases hret with
    | returned => rfl
    | stepped hrun => exact absurd hrun h
  · rintro rfl
    exact .returned h

theorem loopReturns_of_step {s u t : State} (h : s.status = .runnable) (hstep : step s = .next u) :
    LoopReturns s t ↔ LoopReturns u t := by
  constructor
  · intro hret
    cases hret with
    | returned hnot => exact absurd h hnot
    | stepped _ hstep' hu =>
      rw [hstep] at hstep'
      cases hstep'
      exact hu
  · exact .stepped h hstep

theorem loopReturns_idle_cfg {s t : State} (h : LoopReturns s t) : t.running = false ∧ t.cfg = s.cfg := by
  induction h with
  | returned => exact ⟨rfl, rfl⟩
  | stepped _ hstep _ ih =>
    obtain ⟨hidle, hcfg⟩ := ih
    exact ⟨hidle, hcfg.trans (step_cfg hstep)⟩

section runReturns
variable {s t : State} (hidle : s.running = false)
include hidle

theorem runReturns_of_terminal (hterm : s.Terminal) : RunReturns s t ↔ t = s := by
  constructor
  · rintro ⟨fuel, st, h⟩
    rw [transact_run_of_terminal fuel hidle hterm] at h
    cases h
    rfl
  · rintro rfl
    exact ⟨0, _, transact_run_of_terminal 0 hidle hterm⟩

theorem runReturns_of_not_terminal (hterm : ¬ s.Terminal) : RunReturns s t ↔ LoopReturns (started s) t := by
  simp only [RunReturns, transact_run_of_not_terminal _ hidle hterm]
  exact ⟨fun ⟨_, _, h⟩ => loopReturns_of_runLoop h, exists_runLoop_of_loopReturns⟩

theorem runReturns_idle_cfg (h : RunReturns s t) : t.running = false ∧ t.cfg = s.cfg := by
  by_cases hterm : s.Terminal
  · obtain rfl := (runReturns_of_terminal hidle hterm).1 h
    exact ⟨hidle, rfl⟩
  · exact (loopReturns_idle_cfg ((runReturns_of_not_terminal hidle hterm).1 h) :)

end runReturns

/-! ### Input supplied before a RUN or between two (R115) -/

/-- `s` with values pushed to the back of its input queue. -/
def pushInputs (vs : List Cell) (s : State) : State := { s with inQ := s.inQ ++ vs }

section oneStep
variable {x y : State} (hrun : x.status = .runnable) (hstep : step x = .next y)
include hrun hstep

/-- A step that suspended is resumed, after a push, from the state it started at with the values pushed. -/
theorem started_pushInputs_of_waiting (hbusy : x.running = true) (hwait : y.status = .waitingForInput)
    (vs : List Cell) : started (pushInputs vs (leaveRun y)) = pushInputs vs x := by
  obtain ⟨-, -, rfl⟩ := onlyInputWithAnEmptyQueueSuspends x y hstep (by simp [hrun]) hwait
  cases x
  cases hrun
  cases hbusy
  rfl

/-- When a step ends a RUN, returning and running again with values pushed is what having pushed them before that step
leads to. -/
theorem loopReturns_pushInputs_of_last (hbusy : x.running = true) (hlast : y.status ≠ .runnable) (vs : List Cell)
    (t : State) : LoopReturns (pushInputs vs x) t ↔ RunReturns (pushInputs vs (leaveRun y)) t := by
  have hidle : (pushInputs vs (leaveRun y)).running = false := rfl
  by_cases hwait : y.status = .waitingForInput
  · have hterm : ¬ (pushInputs vs (leaveRun y)).Terminal := by simp [pushInputs, hwait]
    rw [runReturns_of_not_terminal hidle hterm, started_pushInputs_of_waiting hrun hstep hbusy hwait]
  · have hended : y.status = .halted ∨ y.status = .error := by cases hy : y.status <;> simp_all
    have hterm : (pushInputs vs (leaveRun y)).Terminal := hended
    have hpushed := unreadInputDoesNotInfluenceAStep x y vs hstep hrun hwait
    rw [runReturns_of_terminal hidle hterm,
      loopReturns_of_step (s := pushInputs vs x) (u := pushInputs vs y) hrun hpushed]
    exact loopReturns_of_not_runnable (s := pushInputs vs y) hlast

theorem running_of_step (hbusy : x.running = true) : y.running = true := by
  obtain ⟨-, -, -, -, hrunning, -⟩ := stepsChangeRegistersAndQueuesOnlyByTheirInstruction x y hstep
  exact (hrunning hrun).trans hbusy

theorem step_pushInputs_of_runnable (hgo : y.status = .runnable) (vs : List Cell) :
    step (pushInputs vs x) = .next (pushInputs vs y) :=
  unreadInputDoesNotInfluenceAStep x y vs hstep hrun (by simp [hgo])

end oneStep

/-- A RUN with further values in its queue returns where the RUN without them and one more after pushing them do. -/
theorem exists_loopReturns_of_pushInputs {x t : State} {vs : List Cell} (hrun : x.status = .runnable)
    (hbusy : x.running = true) (h : LoopReturns (pushInputs vs x) t) :
    ∃ r, LoopReturns x r ∧ RunReturns (pushInputs vs r) t := by
  generalize hz : pushInputs vs x = z at h
  induction h generalizing x with
  | returned hnot => subst hz; exact absurd hrun hnot
  | @stepped z u t hz' hu hrest ih =>
    subst hz
    obtain ⟨y, hy⟩ := everyStepAnswersANextState x
    by_cases hgo : y.status = .runnable
    · have hpushed := step_pushInputs_of_runnable hrun hy hgo vs
      rw [hu] at hpushed
      cases hpushed
      obtain ⟨r, hr, ht⟩ := ih hgo (running_of_step hrun hy hbusy) rfl
      exact ⟨r, .stepped hrun hy hr, ht⟩
    · have hlast := loopReturns_pushInputs_of_last hrun hy hbusy hgo vs t
      exact ⟨leaveRun y, .stepped hrun hy (.returned hgo), hlast.1 (.stepped hz' hu hrest)⟩

theorem loopReturns_pushInputs {x r t : State} {vs : List Cell} (h : LoopReturns x r) (hrun : x.status = .runnable)
    (hbusy : x.running = true) (ht : RunReturns (pushInputs vs r) t) : LoopReturns (pushInputs vs x) t := by
  induction h with
  | returned hnot => exact absurd hrun hnot
  | @stepped x y r _ hy hr ih =>
    by_cases hgo : y.status = .runnable
    · exact .stepped hrun (step_pushInputs_of_runnable hrun hy hgo vs) (ih hgo (running_of_step hrun hy hbusy) ht)
    · obtain rfl := (loopReturns_of_not_runnable hgo).1 hr
      exact (loopReturns_pushInputs_of_last hrun hy hbusy hgo vs t).2 ht

/-- Running, pushing and running again ends where pushing and running once does. -/
theorem runReturns_pushInputs_iff {s t : State} (hidle : s.running = false) (vs : List Cell) :
    (∃ r, RunReturns s r ∧ RunReturns (pushInputs vs r) t) ↔ RunReturns (pushInputs vs s) t := by
  by_cases hterm : s.Terminal
  · simp only [runReturns_of_terminal hidle hterm, exists_eq_left]
  · have hpushed : RunReturns (pushInputs vs s) t ↔ LoopReturns (pushInputs vs (started s)) t :=
      runReturns_of_not_terminal (s := pushInputs vs s) hidle hterm
    simp only [runReturns_of_not_terminal hidle hterm, hpushed]
    exact ⟨fun ⟨_, hr, ht⟩ => loopReturns_pushInputs hr rfl rfl ht, exists_loopReturns_of_pushInputs rfl rfl⟩

theorem inPush_next_iff {v : Cell} {s u : State} :
    transact (.inPush v) s = .next (u, .nothing) ↔ s.running = false ∧ s.cfg.InCell v ∧ u = pushInput v s := by
  constructor
  · intro h
    have hidle := transact_idle h
    by_cases hv : s.cfg.InCell v
    · rw [transact_inPush_of_inCell hidle hv] at h
      cases h
      exact ⟨hidle, hv, rfl⟩
    · rw [transact_inPush_of_not_inCell hidle hv] at h
      cases h
  · rintro ⟨hidle, hv, rfl⟩
    exact transact_inPush_of_inCell hidle hv

theorem idle_of_inPush_next {v : Cell} {s u : State} (h : transact (.inPush v) s = .next (u, .nothing)) :
    u.running = false := by
  obtain ⟨hidle, -, rfl⟩ := inPush_next_iff.1 h
  exact hidle

theorem pushInputs_pushInput (v : Cell) (vs : List Cell) (s : State) :
    pushInputs vs (pushInput v s) = pushInputs (v :: vs) s := by
  simp [pushInputs, pushInput]

theorem pushAll_iff {vs : List Cell} {s u : State} (hidle : s.running = false) :
    PushAll vs s u ↔ (∀ v ∈ vs, s.cfg.InCell v) ∧ u = pushInputs vs s := by
  induction vs generalizing s with
  | nil => simp [PushAll, pushInputs, eq_comm]
  | cons v vs ih =>
    have hnext : PushAll vs (pushInput v s) u ↔ (∀ v ∈ vs, s.cfg.InCell v) ∧ u = pushInputs (v :: vs) s := by
      rw [← pushInputs_pushInput]
      exact ih (s := pushInput v s) hidle
    simp only [PushAll, inPush_next_iff, hidle, true_and, and_assoc, exists_and_left, exists_eq_left, hnext,
      List.forall_mem_cons]

/-- A RUN before further values are pushed can be left out, if a RUN follows the push. -/
theorem pushAll_after_run_iff {u t : State} (hidle : u.running = false) (vs : List Cell) :
    (∃ r, RunReturns u r ∧ ∃ w, PushAll vs r w ∧ RunReturns w t) ↔ ∃ w, PushAll vs u w ∧ RunReturns w t := by
  have hafter : ∀ r, RunReturns u r →
      ((∃ w, PushAll vs r w ∧ RunReturns w t) ↔ (∀ v ∈ vs, u.cfg.InCell v) ∧ RunReturns (pushInputs vs r) t) :=
    fun r hr => by
      obtain ⟨hidleR, hcfg⟩ := runReturns_idle_cfg hidle hr
      simp only [pushAll_iff hidleR, hcfg, and_assoc, exists_and_left, exists_eq_left]
  calc (∃ r, RunReturns u r ∧ ∃ w, PushAll vs r w ∧ RunReturns w t)
      ↔ ∃ r, RunReturns u r ∧ (∀ v ∈ vs, u.cfg.InCell v) ∧ RunReturns (pushInputs vs r) t :=
        exists_congr fun r => and_congr_right (hafter r)
    _ ↔ (∀ v ∈ vs, u.cfg.InCell v) ∧ ∃ r, RunReturns u r ∧ RunReturns (pushInputs vs r) t := by
        exact ⟨fun ⟨r, hr, hvs, ht⟩ => ⟨hvs, r, hr, ht⟩, fun ⟨hvs, r, hr, ht⟩ => ⟨r, hr, hvs, ht⟩⟩
    _ ↔ (∀ v ∈ vs, u.cfg.InCell v) ∧ RunReturns (pushInputs vs u) t := by
        rw [runReturns_pushInputs_iff hidle]
    _ ↔ ∃ w, PushAll vs u w ∧ RunReturns w t := by
        simp only [pushAll_iff hidle, and_assoc, exists_and_left, exists_eq_left]

theorem fedOneAtATime_cons_iff (v : Cell) (vs : List Cell) (s t : State) :
    FedOneAtATime (v :: vs) s t ↔ ∃ u, PushAll (v :: vs) s u ∧ RunReturns u t := by
  induction vs generalizing v s with
  | nil => simp [FedOneAtATime, PushAll]
  | cons v' vs ih =>
    constructor
    · rintro ⟨u, r, hpush, hr, hfed⟩
      have hidle := idle_of_inPush_next hpush
      obtain ⟨w, hw, ht⟩ := (pushAll_after_run_iff hidle (v' :: vs)).1 ⟨r, hr, (ih v' r).1 hfed⟩
      exact ⟨w, ⟨u, hpush, hw⟩, ht⟩
    · rintro ⟨w, ⟨u, hpush, hw⟩, ht⟩
      have hidle := idle_of_inPush_next hpush
      obtain ⟨r, hr, hrest⟩ := (pushAll_after_run_iff hidle (v' :: vs)).2 ⟨w, hw, ht⟩
      exact ⟨u, r, hpush, hr, (ih v' r).2 hrest⟩

/-- Settles O44 (R115): by induction on the inputs, every RUN but the last can be left out; a RUN that suspends is
resumed at the state its Input would have found the next value in. -/
theorem feedingOneAtATimeEqualsFeedingAllAtOnce : Obligations.FeedingOneAtATimeEqualsFeedingAllAtOnce := by
  intro vs s t hne
  obtain ⟨v, vs, rfl⟩ := List.exists_cons_of_ne_nil hne
  exact fedOneAtATime_cons_iff v vs s t

end Sys2Proof.Proofs
end
